-- ==== Sys2Proof/Word.lean ====
section
/-! DEFINITION. The bit-vector word types. Bits stay bits: a byte, EAX and RAX (32 and 64), XFRM (64), the program counter
(64). A value the rules only add, multiply and compare (effective, linear and physical addresses, the fields of TCS and
SECS, SECS identifiers, error codes) is a natural number: the spec computes addresses over the unbounded naturals
(40_edeccssa.md R98, 92_eei_decisions.md D4), and R6 makes the effective address `X` and the linear address `DS:X` one
number. -/

namespace Sys2Proof

/-- One byte: an instruction byte or a byte of memory. -/
abbrev Byte := BitVec 8

end Sys2Proof
end

