-- ==== Sys2Proof/Config.lean ====
section
/-! DEFINITION. What an implementation fixes and the spec leaves open (00_scope.md section 4, 92_eei_decisions.md O1 to O4,
O8 to O10). The parameters are plain data in one record, which State carries and no step changes: a claim about every
state is then a claim about every configuration. The oracles that depend on the launch (Translate, InEPC, InDS: O5 to
O7) are data of State. The free values have no body. -/

namespace Sys2Proof

/-- The configuration of the machine (R3, R30, O1 to O4, O9, O10). -/
structure Config where
  /-- `EDECCSSA_SUPPORTED` (O4): the CPUID feature flag EDECCSSA. -/
  supported : Bool
  /-- `CET_ENUM` (O3, R30): `CPUID.(EAX=12H, ECX=1):EAX[6]`. -/
  cetEnum : Bool
  /-- `GPRSGX_SIZE` (O1): `sizeof(GPRSGX_AREA)` in bytes. -/
  gprsgxSize : Nat
  /-- `compute_XSAVE_frame_size` (O2, R74): the sizes listed by XFRM value. -/
  xsaveSizes : List (BitVec 64 × Nat)
  /-- `compute_XSAVE_frame_size` at every XFRM value `xsaveSizes` does not list. -/
  xsaveSizeElse : Nat
  /-- `XSAVE_LOOP_END_INCLUSIVE` (O10, R75). -/
  xsaveEndInclusive : Bool
  /-- `INSTR_LEN` (O9): the length of ENCLU in bytes. -/
  instrLen : Nat
  deriving DecidableEq, Repr

/-- The configuration `State.reset` carries: the defaults the spec lists (184, 3, exclusive end; the sizes of G3), the
instruction present, CET not enumerated. DESIGN CHOICE and PRESUMED, log entry 2. -/
def Config.defaults : Config :=
  { supported := true, cetEnum := false, gprsgxSize := 184
    xsaveSizes := [(0x3, 576), (0xE7, 2696), (0x600E7, 11008)], xsaveSizeElse := 0
    xsaveEndInclusive := false, instrLen := 3 }

/-- `PF_ERRORCODE` (O8, R113): the error code of a `#PF` that EDECCSSA itself raises, a free value for each draw and
each reported address. Log entry 3. -/
opaque Config.pfErrorCode : Nat → Nat → Nat

/-- The error code of the page fault that the translation raises for an address nothing in State lists (the `T(a)` of
95_test_vectors.md section 2): a free value. Log entry 3. -/
opaque Config.translationErrorCode : Nat → Nat → Nat

end Sys2Proof
end

