-- ==== Sys2Proof/Syntax.lean ====
section
/-! DEFINITION. The instruction set: one row of spec/opcode_table.json, one constructor (R1, R60), and the written forms
of ENCLU that the spec speaks of (R64 to R66), of which one is the instruction. -/

namespace Sys2Proof

/-- The instructions of spec/opcode_table.json. -/
inductive Instr where
  /-- `ENCLU[EDECCSSA]`, "Decrements TCS" (R1, R70). It has no encoded operand (R61, R63). -/
  | edeccssa
  deriving DecidableEq, Repr

/-- The prefixes R66 names: their effect on ENCLU is not in the source. -/
inductive EncluPrefix where
  | lock
  | operandSize
  | addressSize
  | rep
  | repne
  /-- REX with its four low bits W, R, X, B. -/
  | rex (wrxb : BitVec 4)
  | segCs
  | segSs
  | segDs
  | segEs
  | segFs
  | segGs
  deriving DecidableEq, Repr

/-- A written ENCLU: the prefixes before its three bytes, and the leaf number EAX holds when it runs (R61). -/
structure EncluForm where
  prefixes : List EncluPrefix
  leaf     : BitVec 32
  deriving DecidableEq, Repr

/-- The leaf number that selects EDECCSSA: 09H (R1, R64). -/
def edeccssaLeaf : BitVec 32 := 9

/-- The form an instruction is written in: the bare ENCLU with its leaf number in EAX (R60, R68). -/
def Instr.form : Instr → EncluForm
  | .edeccssa => { prefixes := [], leaf := edeccssaLeaf }

end Sys2Proof
end

