-- ==== Sys2Proof/WellFormed.lean ====
section
/-! DEFINITION. Which written forms the model admits: the bare three bytes (R66) with EAX = 09H (R64). An instruction has
no field to check (R63). -/

namespace Sys2Proof

/-- R66: "the model admits only the bare three bytes of rule R62 and refuses any prefixed form". -/
def EncluForm.bare (f : EncluForm) : Bool := f.prefixes.isEmpty

/-- R64: `x[EAX] = 0x00000009`. -/
def EncluForm.selectsEdeccssa (f : EncluForm) : Bool := f.leaf == edeccssaLeaf

/-- A form is well formed when it is bare and selects EDECCSSA. -/
def EncluForm.wf (f : EncluForm) : Bool := f.bare && f.selectsEdeccssa

/-- An instruction is well formed when the form it is written in is. -/
def Instr.wf (i : Instr) : Bool := i.form.wf

end Sys2Proof
end

