-- ==== Sys2Proof/Decode.lean ====
section
/-! DEFINITION. The decoder, total on any bytes and any EAX, then the encoder (30_encoding.md). EAX takes part in
decoding: a step is EDECCSSA exactly when the instruction at `pc` is ENCLU and EAX = 09H (R64). The three bytes of ENCLU
are the spec's own general knowledge (R62, G1; log entry 5). -/

namespace Sys2Proof

/-- Why bytes are not an instruction of this model. -/
inductive Reject where
  /-- No byte at all. -/
  | noBytes
  /-- One or two bytes, fewer than ENCLU has (R62). -/
  | truncated
  /-- Three bytes that are not the bare ENCLU: any other instruction, any prefixed form (R66). -/
  | notEnclu
  /-- ENCLU with EAX other than 09H (R65). -/
  | otherLeaf
  deriving DecidableEq, Repr

/-- The bytes of ENCLU, lowest address first: `00001111 00000001 11010111` (R62, spec/opcode_table.json). -/
def encluByte0 : Byte := 0b00001111#8
def encluByte1 : Byte := 0b00000001#8
def encluByte2 : Byte := 0b11010111#8

/-- The longest instruction, in bytes (R62: the only length). -/
def maxInstrBytes : Nat := 3

/-- R64: the instruction that EAX and the bytes at `pc` give, with the bytes after it. -/
def decode (eax : BitVec 32) : List Byte → Except Reject (Instr × List Byte)
  | [] => .error .noBytes
  | [_] => .error .truncated
  | [_, _] => .error .truncated
  | b0 :: b1 :: b2 :: rest =>
    if b0 = encluByte0 ∧ b1 = encluByte1 ∧ b2 = encluByte2 then
      if eax = edeccssaLeaf then .ok (.edeccssa, rest) else .error .otherLeaf
    else .error .notEnclu

/-- The bytes of an instruction whose table bits are `w` (bit 0 the least significant bit of the first byte), `n` of
them, lowest address first (R49: "the three bytes of R62 appear in memory in the order written there"). -/
def bytesOfWord : Nat → Nat → List Byte
  | 0, _ => []
  | n + 1, w => BitVec.ofNat 8 w :: bytesOfWord n (w / 256)

/-- The bytes a table word of `nbits` bits stands for: the bits above `nbits` are zero, up to the longest instruction. -/
def tableBytes (nbits w : Nat) : List Byte :=
  bytesOfWord (max maxInstrBytes ((nbits + 7) / 8)) (w % 2 ^ nbits)

/-- The instruction of a table word, with the row's implicit operand EAX = 09H (spec/opcode_table.json "source_fields"). -/
def decodeTableWord (nbits w : Nat) : Option Instr :=
  match decode edeccssaLeaf (tableBytes nbits w) with
  | .ok (i, _) => some i
  | .error _ => none

/-- The bytes of a prefix. PRESUMED (the family's prefix bytes), log entry 5: the spec names the prefixes only. -/
def EncluPrefix.byte : EncluPrefix → Byte
  | .lock => 0xF0
  | .operandSize => 0x66
  | .addressSize => 0x67
  | .rep => 0xF3
  | .repne => 0xF2
  | .rex wrxb => 0b0100#4 ++ wrxb
  | .segCs => 0x2E
  | .segSs => 0x36
  | .segDs => 0x3E
  | .segEs => 0x26
  | .segFs => 0x64
  | .segGs => 0x65

/-- The bytes of a written form: its prefixes, then the three bytes of ENCLU. -/
def EncluForm.bytes (f : EncluForm) : List Byte :=
  f.prefixes.map EncluPrefix.byte ++ [encluByte0, encluByte1, encluByte2]

/-- The encoder: the bytes of an instruction (R62). -/
def encode (i : Instr) : List Byte := i.form.bytes

/-- The leaf number an instruction needs in EAX (R61, R64). -/
def Instr.leaf (i : Instr) : BitVec 32 := i.form.leaf

end Sys2Proof
end

