-- ==== Sys2Proof/Machine/State.lean ====
section
/-! DEFINITION. The state of one logical processor executing EDECCSSA and of the enclave structures it reaches
(10_state.md), as plain data, with the reasons a step can stop. INVENTORY.md lists every field with its rule. -/

namespace Sys2Proof.Machine

/-- An exception by its mnemonic (R119: "the model names the exceptions by mnemonic and needs no number"). -/
inductive ExcName where
  /-- `#GP`, general protection. -/
  | gp
  /-- `#PF`, page fault. -/
  | pf
  /-- Any other exception a translation may raise (R114: the model does not restrict it to page faults). -/
  | other (code : Nat)
  deriving DecidableEq, Repr

/-- What a raised exception reports: its mnemonic, its error code and, where it has one, the linear address (R116). -/
structure ExcReport where
  name      : ExcName
  errorCode : Option Nat
  address   : Option Nat
  deriving DecidableEq, Repr

/-- The faults of a step: each is the terminal Fault outcome of R116 (92_eei_decisions.md D15), with nothing of the
instruction done (R94). All are the spec's own; stopping here is safe. -/
inductive Fault where
  /-- `#GP(0)` (R110): raised by `execEdeccssa` outside an enclave (R71), when `TCS.CSSA = 0` (R72), and outside 64-bit
  mode when the GPR area leaves the DS segment (R83). It reports error code 0 and no address. Safe. -/
  | gp0
  /-- `#PF(a)` (R111): raised by `execEdeccssa` when a page fails `PageOK` (R77, R81, R87). `code` is the draw
  `PF_ERRORCODE` (R113). Safe. -/
  | pf (a : Nat) (code : Nat)
  /-- The fault of an accessibility check, delivered unchanged (R76, R80, R86, R114): raised by `execEdeccssa` where
  `Translate` answers a fault. Safe. -/
  | translation (e : ExcReport)
  deriving DecidableEq, Repr

/-- The refusals of a step: states and bytes to which the spec gives the instruction no meaning (`refuse(reason)` of
00_scope.md section 5.1). All are safe: no claim about a next state can be made there. -/
inductive Refusal where
  /-- An instruction of the opcode table without a meaning yet: raised by a refused arm of `exec`. Safe. -/
  | notModelled (mnemonic : String)
  /-- The program text holds no byte at `pc`: raised by `step`. The program is a finite list of steps (R135). Safe. -/
  | endOfProgram
  /-- The program text ends inside the instruction at `pc`: raised by `step`. Safe. -/
  | truncatedInstruction
  /-- The bytes at `pc` are not the bare ENCLU (R66, D20): raised by `step`. Safe. -/
  | notEnclu
  /-- `refuse(not EDECCSSA)`: ENCLU with EAX other than 09H (R65, D20): raised by `step`. Safe. -/
  | notEdeccssa
  /-- ENCLU's own preconditions do not hold, so control does not reach the leaf (L1 of R131, U10): raised by
  `execEdeccssa`. Safe. -/
  | encluNotReady
  /-- `EDECCSSA_SUPPORTED` is false (R3, R66): raised by `execEdeccssa`. Safe. -/
  | unsupported
  /-- Inside an enclave with no TCS at `CR_TCS_PA` (L2 of R131): raised by `execEdeccssa`. Safe. -/
  | noCurrentTcs
  /-- Inside an enclave with no SECS at `CR_ACTIVE_SECS` (L2 of R131): raised by `execEdeccssa`. Safe. -/
  | noActiveSecs
  /-- `EPCM(CR_TCS_PA)` does not exist (L2 of R131): raised by `execEdeccssa`. Safe. -/
  | noTcsEpcmEntry
  /-- The EPCM entry of the current TCS is not valid: "TCS is not valid" has no exception (R96), and a model that
  represents such a state refuses it (L3 of R131, U7): raised by `execEdeccssa`. Safe. -/
  | tcsNotValid
  /-- `TCS.OSSA + SECS.BASEADDR` is not a multiple of 4096 (R97 item 1): raised by `execEdeccssa`. Safe. -/
  | premiseFrameAlignment
  /-- `SECS.SSAFRAMESIZE = 0` (R97 item 2): raised by `execEdeccssa`. Safe. -/
  | premiseFrameSize
  /-- `GPRSGX_SIZE` outside 1..4096 (R97 item 2): raised by `execEdeccssa`. Safe. -/
  | premiseGprSize
  /-- `TMP_XSIZE = 0` (R97 item 3): raised by `execEdeccssa`. Safe. -/
  | premiseXsaveSize
  /-- `refuse(address overflow)`: a bound of R98 fails (R97 item 4): raised by `execEdeccssa`. Safe. -/
  | addressOverflow
  /-- `pc + INSTR_LEN >= 2^W` (R93, R97 item 5): raised by `execEdeccssa`. Safe. -/
  | pcOverflow
  deriving DecidableEq, Repr

/-- Why an instruction ends before its commit: a raised exception or a refusal (00_scope.md section 5.1). -/
inductive Stop where
  | raise (f : Fault)
  | refuse (r : Refusal)
  deriving DecidableEq, Repr

/-- The fields of a Thread Control Structure that the page names (R17, R18, R19). -/
structure Tcs where
  /-- `TCS.CSSA`: the index of the current SSA frame. -/
  cssa    : Nat
  /-- `TCS.OSSA`: the offset of SSA frame 0 from the enclave base. -/
  ossa    : Nat
  /-- `TCS.OCETSSA`: the offset of CET state save frame 0 from the enclave base. -/
  ocetssa : Nat
  deriving DecidableEq, Repr

/-- The fields of a SECS that the page names (R21 to R24). -/
structure Secs where
  /-- `SECS.BASEADDR`. -/
  baseAddr     : Nat
  /-- `SECS.SSAFRAMESIZE`, in pages. -/
  ssaFrameSize : Nat
  /-- `SECS.ATTRIBUTES.XFRM`. -/
  xfrm         : BitVec 64
  /-- `SECS.CET_ATTRIBUTES.SH_STK_EN`. -/
  shStkEn      : Bool
  /-- `SECS.CET_ATTRIBUTES.ENDBR_EN`. -/
  endbrEn      : Bool
  deriving DecidableEq, Repr

/-- The page type `PT` of an EPCM entry: the two values the page names, and every other (R26, D22). -/
inductive PageType where
  /-- `PT_REG`. -/
  | reg
  /-- `PT_SS_REST`. -/
  | ssRest
  | other (code : Nat)
  deriving DecidableEq, Repr

/-- An EPCM entry (R25). -/
structure EpcmEntry where
  valid          : Bool
  blocked        : Bool
  pending        : Bool
  modified       : Bool
  r              : Bool
  w              : Bool
  pt             : PageType
  enclaveAddress : Nat
  enclaveSecs    : Nat
  deriving DecidableEq, Repr

/-- The answer of `Translate(a, RW)` (R41). -/
inductive TranslateResult where
  | ok (p : Nat)
  | fault (e : ExcReport)
  deriving DecidableEq, Repr

/-- What EDECCSSA works on once its entry checks have passed: the current TCS, the active SECS, and the SECS identifier
`EPCM(CR_TCS_PA).ENCLAVESECS` that every checked page must carry. -/
structure Context where
  tcs   : Tcs
  secs  : Secs
  owner : Nat
  deriving DecidableEq, Repr

/-- The physical addresses the checks collect and the commit writes: `TMP_XSAVE_PAGE_PA_n` (R78), that of `TMP_GPR`
(R80), and that of `TMP_CET_SAVE_AREA` when the CET gate holds (R92). -/
structure FrameAddrs where
  xsave : List Nat
  gpr   : Nat
  cet   : Option Nat
  deriving DecidableEq, Repr

/-- Bytes by linear address, as (address, byte) pairs with strictly rising addresses. An address that is not listed has
no value (log entry 8). -/
abbrev Memory := List Host.Cell

/-- The state of the machine (10_state.md section 1). -/
structure State where
  /-- The parameters of the implementation; no step changes them (R30, log entry 1). -/
  config          : Config
  /-- RAX; EAX is its low half (R10, R64). -/
  rax             : BitVec 64
  /-- The other general registers, an opaque component: (register, value) pairs (R11). -/
  otherRegs       : List (Nat × Nat)
  /-- The flags register, an opaque component (R13). -/
  flags           : Nat
  /-- The program counter (R12): `W` bits, held in 64. -/
  pc              : BitVec 64
  /-- `IN_ENCLAVE` (R14). -/
  inEnclave       : Bool
  /-- `TMP_MODE64` (R15). -/
  mode64          : Bool
  /-- ENCLU's own preconditions hold, so that control reaches the leaf (L1 of R131, U10; log entry 6). -/
  encluReady      : Bool
  /-- The DS segment as the predicate `InDS` (R31, O7): the effective addresses it holds, as inclusive ranges. -/
  ds              : List (Nat × Nat)
  /-- `CR_TCS_PA` (R16). -/
  crTcsPa         : Nat
  /-- `CR_ACTIVE_SECS` (R20). -/
  crActiveSecs    : Nat
  /-- `CR_GPR_PA` (R27). -/
  crGprPa         : Nat
  /-- `CR_XSAVE_PAGE_n` (R28): (n, value) pairs; an element that is not listed holds 0. -/
  crXsavePage     : List (Nat × Nat)
  /-- `CR_CET_SAVE_AREA_PA` (R29). -/
  crCetSaveAreaPa : Nat
  /-- The TCSs, by physical address (R16 to R19). -/
  tcss            : List (Nat × Tcs)
  /-- The SECSs, by physical address (R20 to R24). -/
  secss           : List (Nat × Secs)
  /-- The EPCM: the entry of every EPC page, by the physical address of the page (R25). -/
  epcm            : List (Nat × EpcmEntry)
  /-- `Translate` (O5, R41), the pages it resolves: (linear page address, physical frame number) pairs. -/
  pageMap         : List (Nat × Nat)
  /-- `Translate`, the addresses inside a page that resolve although the page's first address does not: (linear address,
  physical frame number) pairs. Property (b) of R41 speaks only of pages whose first address resolves. -/
  addrMap         : List (Nat × Nat)
  /-- `Translate`, the faults it answers with where neither map lists the address: (linear address, report) pairs. -/
  pageFaults      : List (Nat × ExcReport)
  /-- Data memory by linear address: the bytes of the SSA frames, the CET state save frames and everything else that no
  rule moves (R48, 00_scope.md section 5.1). -/
  mem             : Memory
  /-- The program text, a parameter of the run, by the value of `pc` (R58, D13; no CS base is in the source). -/
  text            : Memory
  /-- The MODEL'S OWN field: which draw the free values are at (R113, log entry 3). -/
  freeDraws       : Nat
  deriving DecidableEq, Repr

/-- The machine right after reset. The spec states no reset value for anything (R36, R130, D16): every field is zero,
false or empty by DESIGN CHOICE (log entry 4), and the configuration is `Config.defaults` (log entry 2). -/
def State.reset : State :=
  { config := Config.defaults
    rax := 0, otherRegs := [], flags := 0, pc := 0
    inEnclave := false, mode64 := false, encluReady := false, ds := []
    crTcsPa := 0, crActiveSecs := 0, crGprPa := 0, crXsavePage := [], crCetSaveAreaPa := 0
    tcss := [], secss := [], epcm := [], pageMap := [], addrMap := [], pageFaults := []
    mem := [], text := [], freeDraws := 0 }

end Sys2Proof.Machine
end

