-- ==== Sys2Proof/Machine/Table.lean ====
section
/-! DEFINITION. Sparse tables as plain data: a list of (key, value) pairs, keys strictly rising. Every map of State (the
TCSs, the SECSs, the EPCM, the page map, the CR_XSAVE_PAGE registers, the bytes of memory) is one, so that equal maps are
equal lists. -/

namespace Sys2Proof.Machine.Table

variable {α : Type}

/-- The value at key `k`, if the table lists it. -/
def get : List (Nat × α) → Nat → Option α
  | [], _ => none
  | (k', v) :: m, k => if k = k' then some v else get m k

/-- The table with `v` at key `k`, kept in rising order. -/
def set : List (Nat × α) → Nat → α → List (Nat × α)
  | [], k, v => [(k, v)]
  | (k', v') :: m, k, v =>
    if k < k' then (k, v) :: (k', v') :: m
    else if k = k' then (k, v) :: m
    else (k', v') :: set m k v

/-- The table without key `k`. -/
def erase : List (Nat × α) → Nat → List (Nat × α)
  | [], _ => []
  | (k', v) :: m, k => if k = k' then erase m k else (k', v) :: erase m k

/-- The value at key `k` of a table whose unlisted keys read as `d`. -/
def getD (d : α) (m : List (Nat × α)) (k : Nat) : α := (get m k).getD d

/-- `setD d m k v`: as `set`, but writing `d`, what an unlisted key reads as, removes the entry. -/
def setD [DecidableEq α] (d : α) (m : List (Nat × α)) (k : Nat) (v : α) : List (Nat × α) :=
  if v = d then erase m k else set m k v

/-- The canonical form: keys strictly rising. -/
def wf (m : List (Nat × α)) : Bool := decide (m.Pairwise fun x y => x.1 < y.1)

/-- The canonical form of a table with a default: keys strictly rising, and no entry that holds the default. -/
def wfD [DecidableEq α] (d : α) (m : List (Nat × α)) : Bool := wf m && m.all fun x => decide (x.2 ≠ d)

end Sys2Proof.Machine.Table
end

