-- ==== Sys2Proof/Machine/Ops.lean ====
section
/-! DEFINITION. The named operations over registers, structures and memory: pages, translation, the EPCM check of one
page, raising an exception, the XSAVE page registers, and the bytes of memory (20_memory.md, 60_exceptions.md). -/

namespace Sys2Proof.Machine

/-! ### Pages (R44) -/

/-- `page(a) = a & ~0xFFF`: the page that holds `a`. -/
def page (a : Nat) : Nat := a / 4096 * 4096

/-- `off(a) = a[11:0]`: the offset of `a` in its page. -/
def off (a : Nat) : Nat := a % 4096

/-! ### Ending an instruction early (00_scope.md section 5.1, R116) -/

/-- Taking an exception: the instruction ends, nothing has been written (R94), and the outcome carries the fault. The
spec describes no entry beyond "release locks, abort and deliver that fault" (R116, D15; log entry 7), names no saved
register and no handler, and no return instruction exists (R121). -/
def raise {α : Type} (f : Fault) : Except Stop α := .error (.raise f)

/-- `refuse(reason)`: the spec gives the instruction no meaning in this state. -/
def refuse {α : Type} (r : Refusal) : Except Stop α := .error (.refuse r)

/-- The outcome of a step whose instruction ended so. -/
def finish : Except Stop State → Host.Outcome State Fault Refusal
  | .ok t => .next t
  | .error (.raise f) => .fault f
  | .error (.refuse r) => .refused r

/-- What a fault reports (R110, R112, R114, R116). -/
def Fault.report : Fault → ExcReport
  | .gp0 => { name := .gp, errorCode := some 0, address := none }
  | .pf a code => { name := .pf, errorCode := some code, address := some a }
  | .translation e => e

/-- The outcome with its next state changed by `f`: how claims say that a component is neither read nor written. -/
def mapNext (f : State → State) :
    Host.Outcome State Fault Refusal → Host.Outcome State Fault Refusal
  | .next t => .next (f t)
  | .fault e => .fault e
  | .refused r => .refused r

/-! ### Translation and the EPCM (R41, R42, R43) -/

/-- `W`, the width of an effective address (R15). -/
def State.width (s : State) : Nat := if s.mode64 then 64 else 32

/-- The physical frame that linear address `a` resolves to, if it resolves. The first address of a page is looked up in
`pageMap` alone, and where it resolves every address of the page does, in the same frame: property (b) of R41. Where it does
not, `addrMap` says of each other address of the page whether that one resolves. -/
def State.frameOf (s : State) (a : Nat) : Option Nat :=
  match Table.get s.pageMap (page a) with
  | some frame => some frame
  | none => if off a = 0 then none else Table.get s.addrMap a

/-- The fault of an address that does not resolve and that `pageFaults` does not list: a page fault that reports the address, with
the translation's own error code, a free value (log entries 3 and 9). -/
def State.unmappedFault (s : State) (a : Nat) : ExcReport :=
  { name := .pf, errorCode := some (Config.translationErrorCode s.freeDraws a), address := some a }

/-- `Translate(a, RW)` (R41): an address that resolves keeps its offset in the page (log entry 9, from R90); every other address faults. -/
def State.translate (s : State) (a : Nat) : TranslateResult :=
  match s.frameOf a with
  | some frame => .ok (4096 * frame + off a)
  | none => .fault ((Table.get s.pageFaults a).getD (s.unmappedFault a))

/-- The EPCM entry of the EPC page that holds physical address `p` (R43). -/
def State.epcmAt (s : State) (p : Nat) : Option EpcmEntry := Table.get s.epcm (page p)

/-- `InEPC(p)` (R42): the EPCM gives every EPC page one entry (R25), so an EPC page is one that has an entry. -/
def State.inEpc (s : State) (p : Nat) : Bool := (s.epcmAt p).isSome

/-- `InDS(x)` (O7, R31, R83). -/
def State.inDs (s : State) (x : Nat) : Bool := s.ds.any fun range => range.1 ≤ x && x ≤ range.2

/-- What `PageOK` (R77) asks of the entry `e` of a page reached through linear address `a`: `ENCLAVEADDRESS` is compared
with the page of `a` (R82, D6). -/
def EpcmEntry.accepts (e : EpcmEntry) (owner : Nat) (t : PageType) (a : Nat) : Bool :=
  e.valid && !e.blocked && (!e.pending && !e.modified) && decide (e.enclaveAddress = page a)
    && decide (e.pt = t) && decide (e.enclaveSecs = owner) && (e.r && e.w)

/-- `PageOK(a, p, t)` (R77): `p` lies in the EPC and its entry is a usable page of type `t` of this enclave at `a`. -/
def State.pageOk (s : State) (owner : Nat) (t : PageType) (a : Nat) (p : Nat) : Bool :=
  match s.epcmAt p with
  | some e => e.accepts owner t a
  | none => false

/-- `PF_ERRORCODE` for a `#PF` at `a` raised in this state (R113): a draw. -/
def State.pfErrorCode (s : State) (a : Nat) : Nat := Config.pfErrorCode s.freeDraws a

/-- The check of one page: accessible for read and write (R76, R80, R86), then `PageOK` (R77, R81, R87). The answer is
the physical address of `a`. -/
def State.checkPage (s : State) (owner : Nat) (t : PageType) (a : Nat) : Except Stop Nat :=
  match s.translate a with
  | .fault e => raise (.translation e)
  | .ok p => if s.pageOk owner t a p then .ok p else raise (.pf a (s.pfErrorCode a))

/-- The check of a list of pages in order; the first fault ends it (R75). -/
def State.checkPages (s : State) (owner : Nat) (t : PageType) : List Nat → Except Stop (List Nat)
  | [] => .ok []
  | a :: rest => do
    let p ← s.checkPage owner t a
    let ps ← s.checkPages owner t rest
    .ok (p :: ps)

/-! ### The XSAVE page registers -/

/-- `CR_XSAVE_PAGE_n` (R28). -/
def State.xsavePage (s : State) (n : Nat) : Nat := Table.getD 0 s.crXsavePage n

/-- Elements `n`, `n + 1`, … of `CR_XSAVE_PAGE` set to the listed addresses; the others keep their values (R91). -/
def writeXsavePages (m : List (Nat × Nat)) : Nat → List Nat → List (Nat × Nat)
  | _, [] => m
  | n, p :: ps => writeXsavePages (Table.setD 0 m n p) (n + 1) ps

/-! ### Bytes of memory (00_scope.md section 5.1, R40, R58) -/

/-- The canonical form of memory: addresses strictly rising (an unlisted address has no value, so no entry repeats it). -/
def Memory.wf (m : Memory) : Bool := Table.wf m

/-- The byte at address `a`, if there is one. -/
def Memory.readByte (m : Memory) (a : Nat) : Option Byte := Table.get m a

/-- One byte written. -/
def Memory.writeByte (m : Memory) (a : Nat) (b : Byte) : Memory := Table.set m a b

/-- `MemRead(a, n)`: the `n` bytes from `a` up, lowest address first, or none where one has no value. -/
def Memory.read (m : Memory) (a : Nat) : Nat → Option (List Byte)
  | 0 => some []
  | n + 1 =>
    match m.readByte a, m.read (a + 1) n with
    | some b, some bs => some (b :: bs)
    | _, _ => none

/-- `MemWrite(a, n, v)`: the bytes of `v` written from `a` up, lowest address first. -/
def Memory.write (m : Memory) (a : Nat) : List Byte → Memory
  | [] => m
  | b :: bs => (m.writeByte a b).write (a + 1) bs

/-- The bytes present from `a` up, at most `n`, up to the first address that has none. -/
def Memory.prefetch (m : Memory) (a : Nat) : Nat → List Byte
  | 0 => []
  | n + 1 =>
    match m.readByte a with
    | some b => b :: m.prefetch (a + 1) n
    | none => []

/-- The bytes of the program text at `pc`, at most the longest instruction (R58: the text is a parameter of the run). -/
def State.fetchBytes (s : State) : List Byte := Memory.prefetch s.text s.pc.toNat maxInstrBytes

/-- Why bytes that decoding rejects end the step (R65, R66, R135). -/
def rejectRefusal : Reject → Refusal
  | .noBytes => .endOfProgram
  | .truncated => .truncatedInstruction
  | .notEnclu => .notEnclu
  | .otherLeaf => .notEdeccssa

/-- The instruction bytes placed at `pc`, EAX and ENCLU's preconditions as launch premise L1 of R131 has them. -/
def State.launchBytes (s : State) (bs : List Byte) : State :=
  { s with
    text := Memory.write s.text s.pc.toNat bs
    rax := s.rax.extractLsb' 32 32 ++ edeccssaLeaf
    encluReady := true }

end Sys2Proof.Machine
end

