-- ==== Sys2Proof/Machine/Flags.lean ====
section
/-! DEFINITION. The flags. "Flags Affected: None." (R13): the one flag rule of the spec. -/

namespace Sys2Proof.Machine

/-- The flags register after an instruction completes: for EDECCSSA, as before (R13). -/
def flagsAfter : Instr → Nat → Nat
  | .edeccssa, flags => flags

end Sys2Proof.Machine
end

