-- ==== Sys2Proof/Machine/Operands.lean ====
section
/-! DEFINITION. The operands of EDECCSSA: the implicit register EAX (R61), the implicit memory parameter TCS (R47), the
SECS and the owner it compares with, and every address and size its operation computes (R73 to R85). The arithmetic is
over the naturals, as R98 asks. -/

namespace Sys2Proof.Machine

/-- `x[EAX]` (R10): the low 32 bits of RAX; bits 63:32 take no part (R64). -/
def State.eax (s : State) : BitVec 32 := s.rax.setWidth 32

/-- The TCS at `CR_TCS_PA` (R16, R47). -/
def State.currentTcs (s : State) : Option Tcs := Table.get s.tcss s.crTcsPa

/-- The SECS at `CR_ACTIVE_SECS` (R20). -/
def State.activeSecs (s : State) : Option Secs := Table.get s.secss s.crActiveSecs

/-- `EPCM(CR_TCS_PA).ENCLAVESECS` (R16, R43). -/
def State.tcsOwner (s : State) : Option Nat := (s.epcmAt s.crTcsPa).map EpcmEntry.enclaveSecs

/-- The TCS at `CR_TCS_PA` is valid (L3 of R131): the EPCM entry of its page is. -/
def State.tcsValid (s : State) : Bool := (s.epcmAt s.crTcsPa).any EpcmEntry.valid

/-- `SSA(i)` (R45): the base of SSA frame `i`. -/
def ssaFrame (t : Tcs) (e : Secs) (i : Nat) : Nat := t.ossa + e.baseAddr + 4096 * e.ssaFrameSize * i

/-- `CETSSA(i)` (R46): the base of CET state save frame `i`. -/
def cetFrame (t : Tcs) (e : Secs) (i : Nat) : Nat := t.ocetssa + e.baseAddr + i * 16

/-- `TMP_SSA` (R73): the frame that becomes current, index `CSSA - 1`. -/
def tmpSsa (t : Tcs) (e : Secs) : Nat := ssaFrame t e (t.cssa - 1)

/-- `compute_XSAVE_frame_size(XFRM)` (R74, O2). -/
def xsaveFrameSize (c : Config) (xfrm : BitVec 64) : Nat := (c.xsaveSizes.lookup xfrm).getD c.xsaveSizeElse

/-- `TMP_XSIZE` (R74). -/
def tmpXsize (c : Config) (e : Secs) : Nat := xsaveFrameSize c e.xfrm

/-- `N`, how many pages the loop visits for an XSAVE area of `size` bytes (R75, O10). -/
def xsavePageCount (c : Config) (size : Nat) : Nat :=
  (size + 4095) / 4096 + if c.xsaveEndInclusive ∧ size % 4096 = 0 then 1 else 0

/-- `N` of the frame (R75). -/
def framePages (c : Config) (e : Secs) : Nat := xsavePageCount c (tmpXsize c e)

/-- The addresses `a_n` the loop visits, in ascending order (R75). -/
def visitedPages (c : Config) (t : Tcs) (e : Secs) : List Nat :=
  (List.range (framePages c e)).map fun n => tmpSsa t e + 4096 * n

/-- `TMP_GPR` (R79): the last `GPRSGX_SIZE` bytes of the frame. -/
def tmpGpr (c : Config) (t : Tcs) (e : Secs) : Nat := tmpSsa t e + 4096 * e.ssaFrameSize - c.gprsgxSize

/-- The last byte of the GPR area (R83). -/
def gprLast (c : Config) (t : Tcs) (e : Secs) : Nat := tmpGpr c t e + c.gprsgxSize - 1

/-- The CET gate `cet` (R84). -/
def cetGate (c : Config) (e : Secs) : Bool := c.cetEnum && (e.shStkEn || e.endbrEn)

/-- `TMP_CET_SAVE_AREA` (R85): CET state save frame `CSSA - 1`. -/
def tmpCetSaveArea (t : Tcs) (e : Secs) : Nat := cetFrame t e (t.cssa - 1)

/-- `TMP_CET_SAVE_PAGE` (R85). -/
def tmpCetSavePage (t : Tcs) (e : Secs) : Nat := page (tmpCetSaveArea t e)

end Sys2Proof.Machine
end

