-- ==== Sys2Proof/Machine/Enclu.lean ====
section
/-! DEFINITION. The meaning of ENCLU[EDECCSSA] (40_edeccssa.md R99), one definition for each part of the operation, in
the operation's order, which is the priority of its faults (R115). -/

namespace Sys2Proof.Machine

/-- Control reaches the leaf: ENCLU's own preconditions hold (L1 of R131, U10) and the leaf is supported (R3, R66). -/
def reachLeaf (s : State) : Except Stop Unit :=
  if !s.encluReady then refuse .encluNotReady
  else if !s.config.supported then refuse .unsupported
  else .ok ()

/-- The entry checks: inside an enclave (R71), then `TCS.CSSA` not 0 (R72). The answer is the current TCS. -/
def entryChecks (s : State) : Except Stop Tcs :=
  if !s.inEnclave then raise .gp0
  else match s.currentTcs with
    | none => refuse .noCurrentTcs
    | some t => if t.cssa = 0 then raise .gp0 else .ok t

/-- The structures the operation dereferences without a test (L2 of R131), and the validity of the TCS, a faulting
condition without a test or an exception, which a model that represents it refuses (R96, L3 of R131, U7). -/
def enclaveContext (s : State) (t : Tcs) : Except Stop Context :=
  match s.activeSecs, s.tcsOwner with
  | some e, some o => if s.tcsValid then .ok { tcs := t, secs := e, owner := o } else refuse .tcsNotValid
  | none, _ => refuse .noActiveSecs
  | some _, none => refuse .noTcsEpcmEntry

/-- The first premise of R97 or bound of R98 that fails, if one does. The loop's bound is on its last page: the pages
before it end lower. -/
def failedPremise (s : State) (x : Context) : Option Refusal :=
  let c := s.config
  if (x.tcs.ossa + x.secs.baseAddr) % 4096 ≠ 0 then some .premiseFrameAlignment
  else if x.secs.ssaFrameSize = 0 then some .premiseFrameSize
  else if c.gprsgxSize = 0 ∨ 4096 < c.gprsgxSize then some .premiseGprSize
  else if tmpXsize c x.secs = 0 then some .premiseXsaveSize
  else if 2 ^ s.width < tmpSsa x.tcs x.secs + 4096 * x.secs.ssaFrameSize then some .addressOverflow
  else if 2 ^ s.width < tmpSsa x.tcs x.secs + 4096 * framePages c x.secs then some .addressOverflow
  else if cetGate c x.secs ∧ 2 ^ s.width < tmpCetSaveArea x.tcs x.secs + 16 then some .addressOverflow
  else if 2 ^ s.width ≤ s.pc.toNat + c.instrLen then some .pcOverflow
  else none

/-- The premises of the computation, tested before any address is used (R97, R98). -/
def checkPremises (s : State) (x : Context) : Except Stop Unit :=
  match failedPremise s x with
  | some r => refuse r
  | none => .ok ()

/-- The DS-segment test of the GPR area, made outside 64-bit mode only (R83). -/
def checkDs (s : State) (x : Context) : Except Stop Unit :=
  if !s.mode64 && !s.inDs (gprLast s.config x.tcs x.secs) then raise .gp0 else .ok ()

/-- The CET part of the checks (R84 to R87), and the address R92 commits. -/
def checkCet (s : State) (x : Context) : Except Stop (Option Nat) :=
  if cetGate s.config x.secs then do
    let c ← s.checkPage x.owner .ssRest (tmpCetSavePage x.tcs x.secs)
    .ok (some (c + off (tmpCetSaveArea x.tcs x.secs)))
  else .ok none

/-- The checks of the target frame: XSAVE pages (R75 to R78), GPR area (R79 to R81), DS segment (R83), CET save page
(R84 to R87). -/
def checkFrame (s : State) (x : Context) : Except Stop FrameAddrs := do
  let ps ← s.checkPages x.owner .reg (visitedPages s.config x.tcs x.secs)
  let g ← s.checkPage x.owner .reg (tmpGpr s.config x.tcs x.secs)
  checkDs s x
  let c ← checkCet s x
  .ok { xsave := ps, gpr := g, cet := c }

/-- The commit (R88 to R93), one atomic change of state: `TCS.CSSA` of the current TCS decremented (R89), `CR_GPR_PA`
(R90), `CR_XSAVE_PAGE_n` for the visited `n` (R91), `CR_CET_SAVE_AREA_PA` where the gate holds (R92), the flags as R13
has them, `pc` past the instruction (R93). -/
def commitFrame (s : State) (x : Context) (f : FrameAddrs) : State :=
  { s with
    tcss := Table.set s.tcss s.crTcsPa { x.tcs with cssa := x.tcs.cssa - 1 }
    crGprPa := f.gpr
    crXsavePage := writeXsavePages s.crXsavePage 0 f.xsave
    crCetSaveAreaPa := f.cet.getD s.crCetSaveAreaPa
    flags := flagsAfter .edeccssa s.flags
    pc := s.pc + BitVec.ofNat 64 s.config.instrLen }

/-- The operation of R99: the state it commits, or why it ends before. -/
def edeccssaResult (s : State) : Except Stop State := do
  reachLeaf s
  let t ← entryChecks s
  let x ← enclaveContext s t
  checkPremises s x
  let f ← checkFrame s x
  .ok (commitFrame s x f)

/-- ENCLU[EDECCSSA] (R70, R99). -/
def execEdeccssa (s : State) : Host.Outcome State Fault Refusal := finish (edeccssaResult s)

end Sys2Proof.Machine
end

