-- ==== Sys2Proof/Machine/Step.lean ====
section
/-! DEFINITION. One step of the logical processor: the instruction that EAX and the program text at `pc` give (R58, R64),
executed as one atomic change of state (R51). -/

namespace Sys2Proof.Machine

/-- One step (R99): nothing is added around `exec`, which advances `pc` itself when it completes (R93). -/
def step (s : State) : Host.Outcome State Fault Refusal :=
  match decode s.eax s.fetchBytes with
  | .ok (i, _) => exec i s
  | .error e => .refused (rejectRefusal e)

/-- `s` launched at the instruction whose table word is `w`: its bytes in the program text at `pc`, EAX = 09H and ENCLU's
preconditions met, which is launch premise L1 of R131 (log entry 6). -/
def State.withFetchWord (s : State) (nbits w : Nat) : State := s.launchBytes (tableBytes nbits w)

end Sys2Proof.Machine
end

