-- ==== Sys2Proof/Safety.lean ====
section
/-! DEFINITION. What claims about this machine are stated in: the launch premises (R131), the states in which EDECCSSA
executes normally (R71, R72, R97, R98 and the checks of R76 to R87), the canonical form every step keeps, and runs of
several steps with where they end (R135). -/

namespace Sys2Proof.Machine

/-- The launch premises L1 to L3 of R131 that a state can show. L4 (total oracles with the properties of R41), L5 (no
recorded fault, nothing in flight) and L6 (DS base 0) hold of every state by construction: log entries 9, 7 and 10. -/
structure LaunchPremises (s : State) : Prop where
  /-- L1: the bare ENCLU at `pc`, EAX = 9, supported, ENCLU's preconditions met. -/
  instruction : ∃ rest, decode s.eax s.fetchBytes = .ok (.edeccssa, rest)
  supported   : s.config.supported = true
  encluReady  : s.encluReady = true
  /-- L2: inside an enclave, `CR_TCS_PA` is the address of a TCS in an EPC page of the enclave of `CR_ACTIVE_SECS`. -/
  tcs         : s.inEnclave = true → ∃ t, s.currentTcs = some t
  secs        : s.inEnclave = true → ∃ e, s.activeSecs = some e
  owner       : s.inEnclave = true → s.tcsOwner = some s.crActiveSecs
  /-- L3: the TCS is valid. -/
  tcsValid    : s.inEnclave = true → ∃ e, s.epcmAt s.crTcsPa = some e ∧ e.valid = true

/-- EDECCSSA gets past its entry checks and premises in `s`, with current TCS `t`, active SECS `e` and owner `o`: R71,
R72, L2 and L3 of R131, the premises of R97 and the bounds of R98, each in the spec's own terms. -/
structure Ready (s : State) (t : Tcs) (e : Secs) (o : Nat) : Prop where
  encluReady : s.encluReady = true
  supported  : s.config.supported = true
  inEnclave  : s.inEnclave = true
  tcs        : s.currentTcs = some t
  cssa       : t.cssa ≠ 0
  secs       : s.activeSecs = some e
  owner      : s.tcsOwner = some o
  tcsValid   : s.tcsValid = true
  aligned    : (t.ossa + e.baseAddr) % 4096 = 0
  frameSize  : 1 ≤ e.ssaFrameSize
  gprSizePos : 1 ≤ s.config.gprsgxSize
  gprSizeMax : s.config.gprsgxSize ≤ 4096
  xsaveSize  : 1 ≤ tmpXsize s.config e
  frameFits  : tmpSsa t e + 4096 * e.ssaFrameSize ≤ 2 ^ s.width
  pagesFit   : ∀ a ∈ visitedPages s.config t e, a + 4096 ≤ 2 ^ s.width
  cetFits    : cetGate s.config e = true → tmpCetSaveArea t e + 16 ≤ 2 ^ s.width
  pcFits     : s.pc.toNat + s.config.instrLen < 2 ^ s.width

/-- The nine parts of `PageOK(a, p, ty)` (R77, R111), in the spec's own terms: `p` lies in the EPC, and the entry of its
page is valid, not blocked, not pending, not modified, at the page of `a` (R82), of type `ty`, of the enclave `o`, and
readable and writable. -/
def UsablePage (s : State) (o : Nat) (ty : PageType) (a p : Nat) : Prop :=
  ∃ entry, s.epcmAt p = some entry ∧ entry.valid = true ∧ entry.blocked = false ∧ entry.pending = false ∧
    entry.modified = false ∧ entry.enclaveAddress = page a ∧ entry.pt = ty ∧ entry.enclaveSecs = o ∧
    entry.r = true ∧ entry.w = true

/-- The check of one page passes with physical address `p` (R76 and R77, R80 and R81, R86 and R87). -/
structure PagePasses (s : State) (o : Nat) (ty : PageType) (a p : Nat) : Prop where
  resolves : s.translate a = .ok p
  usable   : UsablePage s o ty a p

/-- Every XSAVE page of the target frame passes, page `n` at physical address `pas n` (R75 to R78). -/
def XsavePagesPass (s : State) (t : Tcs) (e : Secs) (o : Nat) (pas : Nat → Nat) : Prop :=
  ∀ n < framePages s.config e, PagePasses s o .reg (tmpSsa t e + 4096 * n) (pas n)

/-- The GPR area of the target frame passes at physical address `g` (R79 to R81). -/
def GprAreaPasses (s : State) (t : Tcs) (e : Secs) (o : Nat) (g : Nat) : Prop :=
  PagePasses s o .reg (tmpGpr s.config t e) g

/-- The DS-segment test passes or is not made (R83). -/
def DsPasses (s : State) (t : Tcs) (e : Secs) : Prop :=
  s.mode64 = false → s.inDs (gprLast s.config t e) = true

/-- Where the CET gate holds, the CET save page passes at physical address `c` (R84 to R87). -/
def CetPagePasses (s : State) (t : Tcs) (e : Secs) (o : Nat) (c : Nat) : Prop :=
  cetGate s.config e = true → PagePasses s o .ssRest (tmpCetSavePage t e) c

/-- `a` is one of the linear addresses EDECCSSA checks with page type `ty` (R76, R80, R86). -/
inductive Checked (s : State) (t : Tcs) (e : Secs) : PageType → Nat → Prop where
  | xsave (n : Nat) (h : n < framePages s.config e) : Checked s t e .reg (tmpSsa t e + 4096 * n)
  | gpr : Checked s t e .reg (tmpGpr s.config t e)
  | cet (h : cetGate s.config e = true) : Checked s t e .ssRest (tmpCetSavePage t e)

/-- `s` and `s'` agree on everything R35 says EDECCSSA reads (on the CET fields in every case, not only where R35 has them
read), on what the model tests besides, and on the parameters: the readiness of ENCLU, the modes, the configuration, the
draw of the free values, `pc` (R97 item 5), the validity of the TCS (the tested part of L3 of R131), the fields of the
current TCS and the active SECS, the owner, and, for each checked address, the answer of `Translate` and the EPCM entry of
the page reached; `InDS` at the last byte of the GPR area only outside 64-bit mode. Where the two structures stand, and everything else, may differ. -/
structure SameReads (s s' : State) : Prop where
  encluReady : s'.encluReady = s.encluReady
  config     : s'.config = s.config
  inEnclave  : s'.inEnclave = s.inEnclave
  mode64     : s'.mode64 = s.mode64
  freeDraws  : s'.freeDraws = s.freeDraws
  pc         : s'.pc = s.pc
  tcs        : s'.currentTcs = s.currentTcs
  secs       : s'.activeSecs = s.activeSecs
  owner      : s'.tcsOwner = s.tcsOwner
  tcsValid   : s'.tcsValid = s.tcsValid
  translate  : ∀ t e ty a, s.currentTcs = some t → s.activeSecs = some e → Checked s t e ty a →
    s'.translate a = s.translate a
  entries    : ∀ t e ty a p, s.currentTcs = some t → s.activeSecs = some e → Checked s t e ty a →
    s.translate a = .ok p → s'.epcmAt p = s.epcmAt p
  ds         : ∀ t e, s.currentTcs = some t → s.activeSecs = some e → s.mode64 = false →
    s'.inDs (gprLast s.config t e) = s.inDs (gprLast s.config t e)

/-- `s` with `TCS.OCETSSA` of the current TCS replaced. -/
def State.withOcetssa (v : Nat) (s : State) : State :=
  match s.currentTcs with
  | some t => { s with tcss := Table.set s.tcss s.crTcsPa { t with ocetssa := v } }
  | none => s

/-- `s` with the two CET enable bits of the active SECS replaced. -/
def State.withCetBits (shStkEn endbrEn : Bool) (s : State) : State :=
  match s.activeSecs with
  | some e => { s with secss := Table.set s.secss s.crActiveSecs { e with shStkEn := shStkEn, endbrEn := endbrEn } }
  | none => s

/-- The canonical form of a state: every table sorted without repeats, `CR_XSAVE_PAGE` without zeros, EPCM and page map
keyed by pages, `addrMap` by addresses inside a page, and `pc` within the `W` bits of R12. -/
def State.wf (s : State) : Bool :=
  Table.wf s.otherRegs && Table.wfD 0 s.crXsavePage && Table.wf s.tcss && Table.wf s.secss
    && (Table.wf s.epcm && s.epcm.all fun x => off x.1 == 0)
    && (Table.wf s.pageMap && s.pageMap.all fun x => off x.1 == 0)
    && (Table.wf s.addrMap && s.addrMap.all fun x => off x.1 != 0)
    && Table.wf s.pageFaults && Memory.wf s.mem && Memory.wf s.text
    && decide (s.pc.toNat < 2 ^ s.width)

/-- How a run ends, with the state it ends in (R135). A fault or a refusal leaves the state as it was before the step
that met it (R94, R116) and is not final. -/
inductive RunEnd where
  | final (t : State)
  | faulted (t : State) (f : Fault)
  | refusedAt (t : State) (r : Refusal)
  deriving DecidableEq, Repr

/-- A run of `k` steps from `s` (R135). -/
def runSteps : Nat → State → RunEnd
  | 0, s => .final s
  | k + 1, s =>
    match step s with
    | .next t => runSteps k t
    | .fault f => .faulted s f
    | .refused r => .refusedAt s r

/-- A run of `k` steps from `s` is safe when every step completes (R135 (a)). -/
def SafeRun (k : Nat) (s : State) : Prop := ∃ t, runSteps k s = .final t

end Sys2Proof.Machine
end

