-- ==== Sys2Proof/Certificates/Slice0/Obligations.lean ====
section
/-! DEFINITION. The statements for the provers. Each docstring names the rule of spec/ it formalises; where a clause rests
on a decision of the spec (marked `[decision]` or `[derived]` there) or on a choice of the model, it says so. -/

open Sys2Proof Sys2Proof.Machine

/-! ### Encoding -/

/-- The three bytes `0F 01 D7` are EDECCSSA with EAX = 9, and not with EAX = 8 or 0AH (R62, R64, R65; 95_test_vectors.md
section 1); with an operand-size prefix they are refused (R66, D20; the byte 66H is log entry 5). The bytes are the
spec's general knowledge. -/
def Obligations.EncluBytesAreEdeccssaUnderLeafNineOnly : Prop :=
  decode 9 [0x0F, 0x01, 0xD7] = .ok (.edeccssa, []) ∧
  decode 8 [0x0F, 0x01, 0xD7] = .error .otherLeaf ∧
  decode 0xA [0x0F, 0x01, 0xD7] = .error .otherLeaf ∧
  decode 9 [0x66, 0x0F, 0x01, 0xD7] = .error .notEnclu ∧
  decodeTableWord 24 0xD7010F = some .edeccssa

/-- Decoding accepts exactly the words that the table's match and mask accept, read as one little-endian 24-bit word, under
EAX = 9 (R62, R64), and nothing shorter. The pattern is the spec's general knowledge. -/
def Obligations.DecodingAcceptsExactlyTheMaskedWordUnderLeafNine : Prop :=
  (∀ (eax : BitVec 32) (b0 b1 b2 : Byte) (after : List Byte) (i : Instr) (rest : List Byte),
    decode eax (b0 :: b1 :: b2 :: after) = .ok (i, rest) ↔
      (b0.toNat + 2 ^ 8 * b1.toNat + 2 ^ 16 * b2.toNat) &&& 0xFFFFFF = 0xD7010F ∧ eax = 9 ∧ i = .edeccssa ∧ rest = after) ∧
  (∀ (eax : BitVec 32) (bs : List Byte), bs.length < 3 → ∃ e, decode eax bs = .error e)

/-- Decode and encode agree at every written form of ENCLU: the bytes of a form decode to an instruction exactly when the
form is well formed (bare, leaf 9), then to EDECCSSA with the bytes that follow left over, and the encoding of every
well-formed instruction decodes back to it (R62, R64, R66, D20; prefix bytes: log entry 5). -/
def Obligations.DecodingAgreesWithEncodingAtEveryForm : Prop :=
  (∀ (f : EncluForm) (after : List Byte) (i : Instr) (rest : List Byte),
    decode f.leaf (f.bytes ++ after) = .ok (i, rest) ↔ f.wf = true ∧ i = .edeccssa ∧ rest = after) ∧
  (∀ (i : Instr) (after : List Byte), i.wf = true → decode i.leaf (encode i ++ after) = .ok (i, after))

/-! ### One step -/

/-- A step is the instruction that EAX and the bytes at `pc` decode to, and nothing around it (R64, R58, R51). -/
def Obligations.StepRunsTheDecodedInstruction : Prop :=
  ∀ (s : State) (i : Instr) (rest : List Byte),
    decode s.eax s.fetchBytes = .ok (i, rest) → step s = exec i s

/-- What a step does where the bytes at `pc` are not EDECCSSA: ENCLU under another leaf number, any other three bytes, a
program that ends inside the instruction or before it; each is refused by name, never a no-op (R65, R66, R135; decisions
D20, D25 of the spec). -/
def Obligations.StepRefusesWhateverIsNotEdeccssa : Prop :=
  (∀ s : State, s.fetchBytes = [0x0F, 0x01, 0xD7] → s.eax ≠ 9 → step s = .refused .notEdeccssa) ∧
  (∀ (s : State) (b0 b1 b2 : Byte), s.fetchBytes = [b0, b1, b2] → ¬ (b0 = 0x0F ∧ b1 = 0x01 ∧ b2 = 0xD7) →
    step s = .refused .notEnclu) ∧
  (∀ s : State, s.fetchBytes.length = 1 ∨ s.fetchBytes.length = 2 → step s = .refused .truncatedInstruction) ∧
  (∀ s : State, Memory.readByte s.text s.pc.toNat = none → step s = .refused .endOfProgram)

/-- A word placed by `withFetchWord` is the next instruction run, and placing it changes the program text, EAX and the
readiness of ENCLU only (launch premise L1 of R131; log entry 6). -/
def Obligations.LaunchedWordRunsNextAndChangesOnlyTheLaunch : Prop :=
  ∀ s : State,
    step (s.withFetchWord 24 0xD7010F) = exec .edeccssa (s.withFetchWord 24 0xD7010F) ∧
    s.withFetchWord 24 0xD7010F =
      { s with
        text := (s.withFetchWord 24 0xD7010F).text
        rax := (s.withFetchWord 24 0xD7010F).rax
        encluReady := true } ∧
    (∀ a, ¬ (s.pc.toNat ≤ a ∧ a < s.pc.toNat + 3) →
      Memory.readByte (s.withFetchWord 24 0xD7010F).text a = Memory.readByte s.text a) ∧
    (s.withFetchWord 24 0xD7010F).rax.extractLsb' 32 32 = s.rax.extractLsb' 32 32

/-- In a launch state (R131) the step is EDECCSSA, and the only refusals left are the failed premises of R97 and R98
(decisions D7, D8, D9, D17 of the spec; log entry 6). -/
def Obligations.LaunchStatesRefuseOnFailedPremisesOnly : Prop :=
  ∀ s : State, LaunchPremises s →
    step s = exec .edeccssa s ∧
    ∀ r, step s = .refused r →
      r = .premiseFrameAlignment ∨ r = .premiseFrameSize ∨ r = .premiseGprSize ∨ r = .premiseXsaveSize ∨
        r = .addressOverflow ∨ r = .pcOverflow

/-! ### Entry checks -/

/-- R4: "This instruction leaf can only be executed inside an enclave. Executed outside an enclave it raises `#GP(0)`",
whatever else the state holds; and where it completes, it ran inside an enclave. -/
def Obligations.OutsideAnEnclaveRaisesGp0 : Prop :=
  (∀ s : State, s.encluReady = true → s.config.supported = true → s.inEnclave = false →
    exec .edeccssa s = .fault .gp0) ∧
  (∀ s u : State, exec .edeccssa s = .next u → s.inEnclave = true) ∧
  Fault.gp0.report = { name := .gp, errorCode := some 0, address := none }

/-- R72: with `TCS.CSSA = 0` the outcome is `#GP(0)`, whatever the other fields and pages are; and where EDECCSSA
completes, `TCS.CSSA` was at least 1. -/
def Obligations.CssaZeroRaisesGp0 : Prop :=
  (∀ (s : State) (t : Tcs), s.encluReady = true → s.config.supported = true → s.inEnclave = true →
    s.currentTcs = some t → t.cssa = 0 → exec .edeccssa s = .fault .gp0) ∧
  (∀ s u : State, exec .edeccssa s = .next u → ∃ t, s.currentTcs = some t ∧ 1 ≤ t.cssa)

/-! ### Completion -/

/-- R99 with R88: when every check passes EDECCSSA completes, in exactly the state the rules give: `TCS.CSSA` decremented
(R89), `CR_GPR_PA` (R90), `CR_XSAVE_PAGE_n` for the visited `n` and no other (R91, D10), `CR_CET_SAVE_AREA_PA` where the
gate holds (R92), `pc` advanced (R93, D2), and every other component as it was. -/
def Obligations.CompletesInTheStateOfTheRulesWhenEveryCheckPasses : Prop :=
  ∀ (s : State) (t : Tcs) (e : Secs) (o : Nat) (pas : Nat → Nat) (g c : Nat),
    Ready s t e o → XsavePagesPass s t e o pas → GprAreaPasses s t e o g → DsPasses s t e → CetPagePasses s t e o c →
    ∃ u, exec .edeccssa s = .next u ∧
      u = { s with
            tcss := Table.set s.tcss s.crTcsPa { t with cssa := t.cssa - 1 }
            crGprPa := g
            crXsavePage := u.crXsavePage
            crCetSaveAreaPa :=
              if cetGate s.config e = true then c + off (tmpCetSaveArea t e) else s.crCetSaveAreaPa
            pc := s.pc + BitVec.ofNat 64 s.config.instrLen } ∧
      (∀ n, n < framePages s.config e → u.xsavePage n = pas n) ∧
      (∀ n, framePages s.config e ≤ n → u.xsavePage n = s.xsavePage n)

/-- R99: EDECCSSA completes exactly in the states where its entry checks and premises hold and every page check, the DS
test and the CET page check pass. R99 takes it for granted that control has reached the leaf and that the TCS is valid, which
the model tests (log entries 6, 17); the premises are decisions D7, D8, D9 of the spec. -/
def Obligations.CompletesExactlyWhenEveryCheckPasses : Prop :=
  ∀ s : State,
    (∃ u, exec .edeccssa s = .next u) ↔
      ∃ t e o, Ready s t e o ∧ (∃ pas, XsavePagesPass s t e o pas) ∧ (∃ g, GprAreaPasses s t e o g) ∧
        DsPasses s t e ∧ ∃ c, CetPagePasses s t e o c

/-- R89: `TCS.CSSA <- TCS.CSSA - 1`, from a value of at least 1, the other fields of the TCS as they were. -/
def Obligations.CompletionDecrementsCssa : Prop :=
  ∀ s u : State, exec .edeccssa s = .next u →
    ∃ t, s.currentTcs = some t ∧ 1 ≤ t.cssa ∧ u.currentTcs = some { t with cssa := t.cssa - 1 }

/-- R90: `CR_GPR_PA` becomes the physical address of the GPR area of frame `CSSA - 1` (R73, R79), with its offset in the
page, which is `4096 - GPRSGX_SIZE`. -/
def Obligations.CompletionLoadsTheAddressOfTheGprArea : Prop :=
  ∀ (s u : State) (t : Tcs) (e : Secs), exec .edeccssa s = .next u →
    s.currentTcs = some t → s.activeSecs = some e →
    s.translate (t.ossa + e.baseAddr + 4096 * e.ssaFrameSize * (t.cssa - 1) + 4096 * e.ssaFrameSize
      - s.config.gprsgxSize) = .ok u.crGprPa ∧
    off u.crGprPa = off (t.ossa + e.baseAddr + 4096 * e.ssaFrameSize * (t.cssa - 1) + 4096 * e.ssaFrameSize
      - s.config.gprsgxSize) ∧
    off u.crGprPa = 4096 - s.config.gprsgxSize

/-- R73, R75, R78, R91: `CR_XSAVE_PAGE_n` becomes the physical address of page `n` of frame `CSSA - 1` for every visited
`n`, and keeps its value from `N` on (the iteration set and the index base are decisions D9, D10 of the spec). -/
def Obligations.CompletionLoadsTheXsavePagesOfTheTargetFrame : Prop :=
  ∀ (s u : State) (t : Tcs) (e : Secs) (size N : Nat), exec .edeccssa s = .next u →
    s.currentTcs = some t → s.activeSecs = some e →
    size = xsaveFrameSize s.config e.xfrm →
    N = (size + 4095) / 4096 + (if s.config.xsaveEndInclusive = true ∧ size % 4096 = 0 then 1 else 0) →
    (∀ n, n < N → s.translate (t.ossa + e.baseAddr + 4096 * e.ssaFrameSize * (t.cssa - 1) + 4096 * n)
      = .ok (u.xsavePage n)) ∧
    (∀ n, N ≤ n → u.xsavePage n = s.xsavePage n)

/-- R92: where the gate holds `CR_CET_SAVE_AREA_PA` becomes the physical address of CET state save frame `CSSA - 1` (R85):
that of its page plus its offset; otherwise it is unchanged. -/
def Obligations.CompletionLoadsTheCetSaveAreaWhereTheGateHolds : Prop :=
  ∀ (s u : State) (t : Tcs) (e : Secs) (area : Nat), exec .edeccssa s = .next u →
    s.currentTcs = some t → s.activeSecs = some e →
    area = t.ocetssa + e.baseAddr + (t.cssa - 1) * 16 →
    (s.config.cetEnum = true ∧ (e.shStkEn = true ∨ e.endbrEn = true) →
      s.translate area = .ok u.crCetSaveAreaPa ∧
      ∃ c, s.translate (page area) = .ok c ∧ u.crCetSaveAreaPa = c + off area) ∧
    (¬ (s.config.cetEnum = true ∧ (e.shStkEn = true ∨ e.endbrEn = true)) →
      u.crCetSaveAreaPa = s.crCetSaveAreaPa)

/-- R84: where the gate does not hold, no CET field is read: the outcome is the same for every `TCS.OCETSSA`; and where
`CET_ENUM = 0` it is the same for every value of the two enable bits. Where it holds, EDECCSSA completes only if the CET
save page passes. -/
def Obligations.ClosedCetGateReadsNoCetField : Prop :=
  (∀ (s : State) (e : Secs) (v : Nat), s.activeSecs = some e →
    ¬ (s.config.cetEnum = true ∧ (e.shStkEn = true ∨ e.endbrEn = true)) →
    exec .edeccssa (s.withOcetssa v) = mapNext (State.withOcetssa v) (exec .edeccssa s)) ∧
  (∀ (s : State) (b b' : Bool), s.config.cetEnum = false →
    exec .edeccssa (s.withCetBits b b') = mapNext (State.withCetBits b b') (exec .edeccssa s)) ∧
  (∀ (s u : State) (t : Tcs) (e : Secs) (o : Nat), s.currentTcs = some t → s.activeSecs = some e →
    s.tcsOwner = some o → s.config.cetEnum = true ∧ (e.shStkEn = true ∨ e.endbrEn = true) →
    exec .edeccssa s = .next u → ∃ c, PagePasses s o .ssRest (tmpCetSavePage t e) c)

/-- R93: on completion `pc` moves past the instruction without wrapping at `2^W` (decision D2 of the spec; log entry 13). -/
def Obligations.CompletionAdvancesPcPastTheInstruction : Prop :=
  ∀ s u : State, exec .edeccssa s = .next u →
    u.pc = s.pc + BitVec.ofNat 64 s.config.instrLen ∧
    u.pc.toNat = s.pc.toNat + s.config.instrLen ∧ u.pc.toNat < 2 ^ u.width

/-- R25: where EDECCSSA completes, every page it checked resolved to an EPC page whose entry has each field as the table
of R25 asks, and the EPCM is as it was. -/
def Obligations.EveryCheckedPageHasTheEpcmFieldsAsked : Prop :=
  ∀ (s u : State) (t : Tcs) (e : Secs), exec .edeccssa s = .next u →
    s.currentTcs = some t → s.activeSecs = some e →
    u.epcm = s.epcm ∧
    ∀ ty a, Checked s t e ty a →
      ∃ p entry tcsEntry, s.translate a = .ok p ∧ s.epcmAt p = some entry ∧ s.epcmAt s.crTcsPa = some tcsEntry ∧
        entry.valid = true ∧ entry.blocked = false ∧ entry.pending = false ∧ entry.modified = false ∧
        entry.r = true ∧ entry.w = true ∧ entry.pt = ty ∧ entry.enclaveAddress = page a ∧
        entry.enclaveSecs = tcsEntry.enclaveSecs

/-! ### Faults -/

/-- R75 to R78: the first XSAVE page that does not pass ends the instruction, with the translation's own fault, or with
`#PF` at that page when one of the nine parts of `PageOK` fails; nothing later, not the GPR area, not DS, not the CET
page, is looked at (R115). The order of the loop and the page-granular comparison are decisions D9, D6 of the spec. -/
def Obligations.FirstBadXsavePageFaults : Prop :=
  ∀ (s : State) (t : Tcs) (e : Secs) (o n : Nat), Ready s t e o → n < framePages s.config e →
    (∀ m, m < n → ∃ p, PagePasses s o .reg (tmpSsa t e + 4096 * m) p) →
    (∀ r, s.translate (tmpSsa t e + 4096 * n) = .fault r → exec .edeccssa s = .fault (.translation r)) ∧
    (∀ p, s.translate (tmpSsa t e + 4096 * n) = .ok p → ¬ UsablePage s o .reg (tmpSsa t e + 4096 * n) p →
      exec .edeccssa s = .fault (.pf (tmpSsa t e + 4096 * n) (s.pfErrorCode (tmpSsa t e + 4096 * n))))

/-- R80, R81: once the XSAVE pages pass, a GPR area that does not pass ends the instruction, with the translation's own
fault, or with `#PF` at `TMP_GPR` itself; DS and the CET page are not looked at (R115). -/
def Obligations.BadGprAreaFaults : Prop :=
  ∀ (s : State) (t : Tcs) (e : Secs) (o : Nat) (pas : Nat → Nat), Ready s t e o → XsavePagesPass s t e o pas →
    (∀ r, s.translate (tmpGpr s.config t e) = .fault r → exec .edeccssa s = .fault (.translation r)) ∧
    (∀ p, s.translate (tmpGpr s.config t e) = .ok p → ¬ UsablePage s o .reg (tmpGpr s.config t e) p →
      exec .edeccssa s = .fault (.pf (tmpGpr s.config t e) (s.pfErrorCode (tmpGpr s.config t e))))

/-- R83: outside 64-bit mode, once the XSAVE pages and the GPR area pass, a last byte of the GPR area outside the DS
segment raises `#GP(0)`. In 64-bit mode the test is not made: the outcome is the same for every DS. Only the last byte is
tested: the outcome is the same for every DS that answers alike there. -/
def Obligations.GprAreaOutsideDsRaisesGp0OutsideMode64 : Prop :=
  (∀ (s : State) (t : Tcs) (e : Secs) (o : Nat) (pas : Nat → Nat) (g : Nat), Ready s t e o →
    XsavePagesPass s t e o pas → GprAreaPasses s t e o g → s.mode64 = false →
    s.inDs (tmpGpr s.config t e + s.config.gprsgxSize - 1) = false → exec .edeccssa s = .fault .gp0) ∧
  (∀ (s : State) (d : List (Nat × Nat)), s.mode64 = true →
    exec .edeccssa { s with ds := d } = mapNext (fun u => { u with ds := d }) (exec .edeccssa s)) ∧
  (∀ (s : State) (d : List (Nat × Nat)),
    (∀ t e, s.currentTcs = some t → s.activeSecs = some e →
      ({ s with ds := d } : State).inDs (tmpGpr s.config t e + s.config.gprsgxSize - 1)
        = s.inDs (tmpGpr s.config t e + s.config.gprsgxSize - 1)) →
    exec .edeccssa { s with ds := d } = mapNext (fun u => { u with ds := d }) (exec .edeccssa s))

/-- R86, R87: once everything before it passes and the gate holds, a CET save page that does not pass ends the
instruction, with the translation's own fault, or with `#PF` at the page address `TMP_CET_SAVE_PAGE`; the page must be of
type `PT_SS_REST`. -/
def Obligations.BadCetSavePageFaults : Prop :=
  ∀ (s : State) (t : Tcs) (e : Secs) (o : Nat) (pas : Nat → Nat) (g : Nat), Ready s t e o →
    XsavePagesPass s t e o pas → GprAreaPasses s t e o g → DsPasses s t e → cetGate s.config e = true →
    (∀ r, s.translate (tmpCetSavePage t e) = .fault r → exec .edeccssa s = .fault (.translation r)) ∧
    (∀ p, s.translate (tmpCetSavePage t e) = .ok p → ¬ UsablePage s o .ssRest (tmpCetSavePage t e) p →
      exec .edeccssa s = .fault (.pf (tmpCetSavePage t e) (s.pfErrorCode (tmpCetSavePage t e))))

/-- R110: EDECCSSA raises `#GP(0)` in exactly three cases, outside an enclave, with `TCS.CSSA = 0`, and outside 64-bit mode
with the last byte of the GPR area not in DS, this one once everything before it in the order of R115 has passed (R83); it
reports error code 0 and no address. The premises before the third case are decisions D7, D8, D9 of the spec; that control has
reached the leaf and that the TCS is valid, which the model tests, are log entries 6 and 17. -/
def Obligations.Gp0HasExactlyThreeCauses : Prop :=
  (∀ s : State,
    exec .edeccssa s = .fault .gp0 ↔
      s.encluReady = true ∧ s.config.supported = true ∧
      (s.inEnclave = false ∨
       (s.inEnclave = true ∧ ∃ t, s.currentTcs = some t ∧ t.cssa = 0) ∨
       (∃ t e o pas g, Ready s t e o ∧ XsavePagesPass s t e o pas ∧ GprAreaPasses s t e o g ∧
          s.mode64 = false ∧ s.inDs (tmpGpr s.config t e + s.config.gprsgxSize - 1) = false))) ∧
  Fault.gp0.report = { name := .gp, errorCode := some 0, address := none }

/-- R111, R112: a `#PF` that EDECCSSA itself raises reports the linear address it was checking, an XSAVE page, `TMP_GPR` or
`TMP_CET_SAVE_PAGE`, whose `PageOK` fails; the address stands in the fault. (Its error code is the draw of R113: nothing is
said of its value.) It was raised past the entry checks and premises: the premises are decisions D7, D8, D9 of the spec, and
that control has reached the leaf and that the TCS is valid, which the model tests, are log entries 6 and 17. -/
def Obligations.PageFaultReportsTheCheckedAddress : Prop :=
  ∀ (s : State) (a code : Nat), exec .edeccssa s = .fault (.pf a code) →
    (∃ t e o ty p, Ready s t e o ∧ Checked s t e ty a ∧ s.translate a = .ok p ∧ ¬ UsablePage s o ty a p) ∧
    (Fault.pf a code).report.name = .pf ∧ (Fault.pf a code).report.address = some a

/-- R114: a fault of the accessibility check is delivered unchanged: it is the answer of `Translate` at a checked address,
with its own mnemonic, error code and address (R76, R80, R86). It was met past the entry checks and premises: the premises
are decisions D7, D8, D9 of the spec, and that control has reached the leaf and that the TCS is valid, which the model tests,
are log entries 6 and 17. -/
def Obligations.TranslationFaultIsDeliveredUnchanged : Prop :=
  ∀ (s : State) (r : ExcReport), exec .edeccssa s = .fault (.translation r) →
    (∃ t e o ty a, Ready s t e o ∧ Checked s t e ty a ∧ s.translate a = .fault r) ∧
    (Fault.translation r).report = r

/-- R97, R98, R3, R66 and L2, L3 of R131: EDECCSSA is refused exactly where control does not reach the leaf, the current
TCS does not exist, or the entry checks pass and a structure is missing, the TCS is not valid, or a premise fails
(decisions D7, D8, D9, D18, D20 of the spec; log entries 6, 17). -/
def Obligations.RefusesExactlyWhereTheRulesGiveNoMeaning : Prop :=
  ∀ s : State,
    (∃ r, exec .edeccssa s = .refused r) ↔
      s.encluReady = false ∨ s.config.supported = false ∨
      (s.inEnclave = true ∧ s.currentTcs = none) ∨
      (∃ t, s.inEnclave = true ∧ s.currentTcs = some t ∧ t.cssa ≠ 0 ∧ ¬ ∃ e o, Ready s t e o)

/-! ### Frame and independence -/

/-- R34: on completion nothing changes but `TCS.CSSA` of the current TCS, `CR_GPR_PA`, `CR_XSAVE_PAGE_n` of the visited
`n`, `CR_CET_SAVE_AREA_PA` where the gate holds, and `pc`: no general register, no flag, no mode, no other TCS, no SECS, no
EPCM entry, no mapping, and no byte of memory (that the general registers and the unvisited `CR_XSAVE_PAGE_n` survive are
decisions D3, D10 of the spec; log entries 12, 13). -/
def Obligations.CompletionChangesOnlyTheWriteSet : Prop :=
  ∀ (s u : State) (e : Secs), exec .edeccssa s = .next u → s.activeSecs = some e →
    u.rax = s.rax ∧ u.otherRegs = s.otherRegs ∧ u.flags = s.flags ∧ u.inEnclave = s.inEnclave ∧
    u.mode64 = s.mode64 ∧ u.encluReady = s.encluReady ∧ u.ds = s.ds ∧ u.config = s.config ∧
    u.freeDraws = s.freeDraws ∧ u.crTcsPa = s.crTcsPa ∧ u.crActiveSecs = s.crActiveSecs ∧
    u.secss = s.secss ∧ u.epcm = s.epcm ∧ u.pageMap = s.pageMap ∧
    u.addrMap = s.addrMap ∧ u.pageFaults = s.pageFaults ∧
    (∀ pa, pa ≠ s.crTcsPa → Table.get u.tcss pa = Table.get s.tcss pa) ∧
    (∀ t, s.currentTcs = some t → ∃ t', u.currentTcs = some t' ∧ t'.ossa = t.ossa ∧ t'.ocetssa = t.ocetssa) ∧
    (∀ n, framePages s.config e ≤ n → u.xsavePage n = s.xsavePage n) ∧
    (cetGate s.config e = false → u.crCetSaveAreaPa = s.crCetSaveAreaPa) ∧
    (∀ a, Memory.readByte u.mem a = Memory.readByte s.mem a) ∧
    (∀ a, Memory.readByte u.text a = Memory.readByte s.text a)

/-- R13: EDECCSSA writes no flag and reads none: on completion the flags are as they were, and with any other flags the
outcome is the same, faults included. -/
def Obligations.FlagsAreNeitherReadNorWritten : Prop :=
  (∀ s u : State, exec .edeccssa s = .next u → u.flags = s.flags) ∧
  (∀ (s : State) (v : Nat),
    exec .edeccssa { s with flags := v } = mapNext (fun u => { u with flags := v }) (exec .edeccssa s))

/-- R10, R11: once selected, EDECCSSA reads and writes no general register, EAX and the upper half of RAX included
(decision D3 of the spec); and the selection reads only EAX: with any other upper half of RAX the step is the same. -/
def Obligations.GeneralRegistersAreNeitherReadNorWritten : Prop :=
  (∀ s u : State, exec .edeccssa s = .next u → u.rax = s.rax ∧ u.otherRegs = s.otherRegs) ∧
  (∀ (s : State) (v : BitVec 64) (rs : List (Nat × Nat)),
    exec .edeccssa { s with rax := v, otherRegs := rs }
      = mapNext (fun u => { u with rax := v, otherRegs := rs }) (exec .edeccssa s)) ∧
  (∀ (s : State) (hi : BitVec 32),
    step { s with rax := hi ++ s.eax } = mapNext (fun u => { u with rax := hi ++ s.eax }) (step s))

/-- R48: EDECCSSA reads and writes no byte of memory: every byte reads after as before, and with any other memory and any
other program text the outcome is the same. -/
def Obligations.NoByteOfMemoryIsReadOrWritten : Prop :=
  (∀ s u : State, exec .edeccssa s = .next u →
    ∀ a, Memory.readByte u.mem a = Memory.readByte s.mem a ∧ Memory.readByte u.text a = Memory.readByte s.text a) ∧
  (∀ (s : State) (m m' : Memory),
    exec .edeccssa { s with mem := m, text := m' }
      = mapNext (fun u => { u with mem := m, text := m' }) (exec .edeccssa s))

/-- R35: the outcome is a function of the read set alone. The set is a little wider than that of R35: it has `pc` (R97
item 5), the readiness of ENCLU and the validity of the TCS, which the model tests (log entries 6, 17), the whole of the current
TCS and the active SECS, so `TCS.OCETSSA` with the gate closed and the two enable bits with `CET_ENUM = 0` too (that those
are not read then is ClosedCetGateReadsNoCetField). Two states that agree on it (SameReads), wherever their TCSs and SECSs stand and
whatever else they hold, fault alike, are refused alike, or complete with the same new `TCS.CSSA`,
`CR_GPR_PA`, visited `CR_XSAVE_PAGE_n`, `CR_CET_SAVE_AREA_PA` where the gate holds, and `pc`. -/
def Obligations.OutcomeIsAFunctionOfTheReadSet : Prop :=
  ∀ s s' : State, SameReads s s' →
    (∀ f, exec .edeccssa s = .fault f ↔ exec .edeccssa s' = .fault f) ∧
    (∀ r, exec .edeccssa s = .refused r ↔ exec .edeccssa s' = .refused r) ∧
    (∀ u, exec .edeccssa s = .next u → ∃ u', exec .edeccssa s' = .next u' ∧
      u'.currentTcs = u.currentTcs ∧ u'.crGprPa = u.crGprPa ∧ u'.pc = u.pc ∧
      ∀ e, s.activeSecs = some e →
        (∀ n, n < framePages s.config e → u'.xsavePage n = u.xsavePage n) ∧
        (cetGate s.config e = true → u'.crCetSaveAreaPa = u.crCetSaveAreaPa))

/-! ### Addresses -/

/-- R75: with the exclusive loop end (the default of O10), the visited pages are exactly the pages that overlap the XSAVE
area `[TMP_SSA, TMP_SSA + TMP_XSIZE)`, and there are `ceil(TMP_XSIZE / 4096)` of them (decision D9 of the spec). -/
def Obligations.ExclusiveLoopVisitsThePagesOfTheXsaveArea : Prop :=
  ∀ (c : Config) (t : Tcs) (e : Secs), c.xsaveEndInclusive = false → (t.ossa + e.baseAddr) % 4096 = 0 →
    (∀ a, a ∈ visitedPages c t e ↔ a % 4096 = 0 ∧ a < tmpSsa t e + tmpXsize c e ∧ tmpSsa t e < a + 4096) ∧
    tmpXsize c e ≤ 4096 * framePages c e ∧
    (∀ k, tmpXsize c e ≤ 4096 * k → framePages c e ≤ k)

/-- R79: the whole GPR area lies in the last page of the target frame and ends it (derived in the spec from R97). -/
def Obligations.GprAreaEndsTheLastPageOfTheFrame : Prop :=
  ∀ (s : State) (t : Tcs) (e : Secs) (o : Nat), Ready s t e o →
    page (tmpGpr s.config t e) = tmpSsa t e + 4096 * (e.ssaFrameSize - 1) ∧
    page (gprLast s.config t e) = tmpSsa t e + 4096 * (e.ssaFrameSize - 1) ∧
    gprLast s.config t e + 1 = tmpSsa t e + 4096 * e.ssaFrameSize

/-- R98: under the premises no address computation wraps: computed in `W`-bit vectors, the addresses of the frame, of its
pages, of the GPR area and of the CET save frame are the same numbers (decision D8 of the spec). -/
def Obligations.AddressesAgreeWithBitVectorArithmetic : Prop :=
  ∀ (s : State) (t : Tcs) (e : Secs) (o : Nat), Ready s t e o →
    (BitVec.ofNat s.width t.ossa + BitVec.ofNat s.width e.baseAddr
      + 4096 * BitVec.ofNat s.width e.ssaFrameSize * BitVec.ofNat s.width (t.cssa - 1)).toNat = tmpSsa t e ∧
    (∀ n, n < framePages s.config e →
      (BitVec.ofNat s.width (tmpSsa t e) + 4096 * BitVec.ofNat s.width n).toNat = tmpSsa t e + 4096 * n) ∧
    (BitVec.ofNat s.width (tmpSsa t e) + 4096 * BitVec.ofNat s.width e.ssaFrameSize
      - BitVec.ofNat s.width s.config.gprsgxSize).toNat = tmpGpr s.config t e ∧
    (cetGate s.config e = true →
      (BitVec.ofNat s.width t.ocetssa + BitVec.ofNat s.width e.baseAddr
        + BitVec.ofNat s.width (t.cssa - 1) * 16).toNat = tmpCetSaveArea t e)

/-- R44: at both widths of an effective address the page of `a` is `a & ~0xFFF`, its offset is `a[11:0]`, and the two make
up `a`. -/
def Obligations.PageAndOffsetAreTheMaskedBits : Prop :=
  ∀ (mode64 : Bool) (a : Nat), a < 2 ^ (if mode64 then 64 else 32) →
    page a = (BitVec.ofNat (if mode64 then 64 else 32) a &&& ~~~ 0xFFF#(if mode64 then 64 else 32)).toNat ∧
    off a = ((BitVec.ofNat (if mode64 then 64 else 32) a).extractLsb 11 0).toNat ∧
    page a + off a = a

/-! ### Invariants and runs -/

/-- Every step keeps the canonical form of the state: sorted tables without repeats, `CR_XSAVE_PAGE` without zeros, EPCM
and page map keyed by pages, `pc` within `W` bits (R12, R93; the tables are the model's own, log entry 8). -/
def Obligations.EveryStepKeepsTheCanonicalForm : Prop :=
  ∀ s u : State, s.wf = true → step s = .next u → u.wf = true

/-- The reset state has the canonical form (its values are the model's, log entry 4), and a program text with nothing in it
has no first step (R135). -/
def Obligations.ResetIsCanonicalAndHasNoInstruction : Prop :=
  State.reset.wf = true ∧ step State.reset = .refused .endOfProgram

/-- R14, R15, R16, R20, R30, R123: no completing step leaves the enclave, changes the mode, the thread or the enclave, or
changes the configuration: the processor stays inside the enclave on the same thread. EAX is 09H after it as before, so
the next ENCLU is EDECCSSA again (R64; that EAX survives is decision D3 of the spec, R11, R93; log entry 13). -/
def Obligations.EveryStepStaysInTheEnclaveOnItsThread : Prop :=
  ∀ s u : State, step s = .next u →
    s.inEnclave = true ∧ u.inEnclave = true ∧ u.mode64 = s.mode64 ∧ u.crTcsPa = s.crTcsPa ∧
    u.crActiveSecs = s.crActiveSecs ∧ u.tcsOwner = s.tcsOwner ∧ u.activeSecs = s.activeSecs ∧ u.config = s.config ∧
    u.eax = 9

/-- R89 and R93 along a run (R135): `k` completing steps pop exactly `k` frames, so there are at most `TCS.CSSA` of them,
and move `pc` by `k` instruction lengths (the fall-through is decision D2 of the spec, log entry 13). -/
def Obligations.RunPopsOneFrameAStep : Prop :=
  ∀ (k : Nat) (s u : State) (t : Tcs), runSteps k s = .final u → s.currentTcs = some t →
    k ≤ t.cssa ∧ u.currentTcs = some { t with cssa := t.cssa - k } ∧
    u.pc.toNat = s.pc.toNat + k * s.config.instrLen

/-- R72 along a run (program P3 of 95_test_vectors.md): after `TCS.CSSA` completing steps the next EDECCSSA raises `#GP(0)`,
and the run ends there with the state the last completing step left. -/
def Obligations.RunEndsInGp0OnceTheFramesAreUsedUp : Prop :=
  ∀ (s u : State) (t : Tcs) (rest : List Byte), s.encluReady = true → s.config.supported = true →
    s.inEnclave = true → s.currentTcs = some t → runSteps t.cssa s = .final u →
    decode u.eax u.fetchBytes = .ok (.edeccssa, rest) →
    runSteps (t.cssa + 1) s = .faulted u .gp0

/-- R94, R116: a fault ends the run in exactly the state before the faulting step, the one its completed steps left, with
`pc` at the faulting instruction (R116 is decision D15 of the spec). -/
def Obligations.FaultLeavesTheStateBeforeTheStep : Prop :=
  ∀ (k : Nat) (s u : State) (f : Fault), runSteps k s = .faulted u f →
    ∃ j, j < k ∧ runSteps j s = .final u ∧ step u = .fault f ∧
      ∃ rest, decode u.eax u.fetchBytes = .ok (.edeccssa, rest)

/-! ### Translation -/

/-- R41: `Translate` is page-granular (where the page of `a` resolves, `a` resolves to the same physical page at its own
offset, and a page's physical address is a multiple of 4096), and EDECCSSA leaves every answer of it as it was (decision O5 of
the spec). The middle clause is the model's choice, log entry 9 (DEDUCED): every address that resolves keeps its offset in
its page, where R90 says so of `TMP_GPR` only. -/
def Obligations.TranslateIsPageGranularAndKeptByCompletion : Prop :=
  (∀ (s : State) (a p : Nat), s.translate (page a) = .ok p → p % 4096 = 0 ∧ s.translate a = .ok (p + off a)) ∧
  (∀ (s : State) (a p : Nat), s.translate a = .ok p → off p = off a) ∧
  (∀ s u : State, exec .edeccssa s = .next u → ∀ a, u.translate a = s.translate a)

/-- R41: the model narrows `Translate` no further. Every oracle that is page-granular (R41 (b)) and keeps the offset of an
address that resolves (the model's choice, log entry 9, DEDUCED from what R90 says of `TMP_GPR`), one that faults at the first address of a page and resolves another among them, is
held by a state, which answers as the oracle does at any finite list of addresses. -/
def Obligations.EveryPageGranularOracleIsHeld : Prop :=
  ∀ (s : State) (oracle : Nat → TranslateResult),
    (∀ a p, oracle (page a) = .ok p → p % 4096 = 0 ∧ oracle a = .ok (p + off a)) →
    (∀ a p, oracle a = .ok p → off p = off a) →
    ∀ asked : List Nat, ∃ m am fs, ∀ a ∈ asked,
      ({ s with pageMap := m, addrMap := am, pageFaults := fs } : State).translate a = oracle a
end

