-- ==== Sys2Proof/Laws/Table.lean ====
section
/-! SUPPORT. The laws of sparse tables: what is read after a write or an erasure, and that every operation keeps the
canonical form. -/

namespace Sys2Proof.Machine.Table

variable {α : Type}

@[simp] theorem get_nil (k : Nat) : get ([] : List (Nat × α)) k = none := rfl

theorem get_cons (k' : Nat) (v : α) (m : List (Nat × α)) (k : Nat) :
    get ((k', v) :: m) k = if k = k' then some v else get m k := rfl

/-- A read after a write: the value written at its key, the old value elsewhere. -/
theorem get_set (m : List (Nat × α)) (k : Nat) (v : α) (j : Nat) :
    get (set m k v) j = if j = k then some v else get m j := by
  induction m with
  | nil => simp [set, get]
  | cons x m ih =>
    obtain ⟨k', v'⟩ := x
    simp only [set]
    split
    · simp [get]
    · split
      · subst_vars
        by_cases hj : j = k' <;> simp [get, hj]
      · by_cases hj : j = k'
        · have : j ≠ k := by omega
          simp [get, hj]
          omega
        · simp [get, hj, ih]

@[simp] theorem get_set_self (m : List (Nat × α)) (k : Nat) (v : α) : get (set m k v) k = some v := by
  simp [get_set]

theorem get_set_other (m : List (Nat × α)) (k : Nat) (v : α) {j : Nat} (h : j ≠ k) :
    get (set m k v) j = get m j := by
  simp [get_set, h]

/-- Of two writes to one key the second stands. -/
theorem set_set (m : List (Nat × α)) (k : Nat) (v w : α) : set (set m k v) k w = set m k w := by
  induction m with
  | nil => simp [set]
  | cons x m ih =>
    obtain ⟨k', v'⟩ := x
    rcases Nat.lt_trichotomy k k' with h | rfl | h
    · simp [set, h]
    · simp [set]
    · have h1 : ¬ k < k' := by omega
      have h2 : ¬ k = k' := by omega
      simp [set, h1, h2, ih]

/-- A read after an erasure. -/
theorem get_erase (m : List (Nat × α)) (k j : Nat) :
    get (erase m k) j = if j = k then none else get m j := by
  induction m with
  | nil => simp [erase]
  | cons x m ih =>
    obtain ⟨k', v'⟩ := x
    by_cases hk : k = k'
    · by_cases hj : j = k'
      · simp [erase, hk, hj] at ih ⊢
        exact ih
      · simp [erase, get, hk, hj] at ih ⊢
        exact ih
    · by_cases hj : j = k'
      · have : j ≠ k := by omega
        simp [erase, get, hk, hj]
        omega
      · simp [erase, get, hk, hj, ih]

/-- A read after a write to a table with a default. -/
theorem getD_setD [DecidableEq α] (d : α) (m : List (Nat × α)) (k : Nat) (v : α) (j : Nat) :
    getD d (setD d m k v) j = if j = k then v else getD d m j := by
  unfold getD setD
  split
  · rw [get_erase]
    split <;> simp_all
  · rw [get_set]
    split <;> simp_all

/-- The keys of a written table are the old ones and the key written. -/
theorem mem_set {m : List (Nat × α)} {k : Nat} {v : α} {x : Nat × α} (h : x ∈ set m k v) :
    x ∈ m ∨ x = (k, v) := by
  induction m with
  | nil => simp_all [set]
  | cons y m ih =>
    obtain ⟨k', v'⟩ := y
    simp only [set] at h
    split at h
    · simp only [List.mem_cons] at h ⊢
      tauto
    · split at h
      · simp only [List.mem_cons] at h ⊢
        tauto
      · simp only [List.mem_cons] at h ⊢
        tauto

theorem mem_of_mem_erase {m : List (Nat × α)} {k : Nat} {x : Nat × α} (h : x ∈ erase m k) : x ∈ m := by
  induction m with
  | nil => simp [erase] at h
  | cons y m ih =>
    obtain ⟨k', v'⟩ := y
    simp only [erase] at h
    split at h
    · exact List.mem_cons_of_mem _ (ih h)
    · rcases List.mem_cons.1 h with h | h
      · simp [h]
      · exact List.mem_cons_of_mem _ (ih h)

theorem wf_nil : wf ([] : List (Nat × α)) = true := by simp [wf]

/-- A write keeps the keys strictly rising. -/
theorem wf_set {m : List (Nat × α)} (h : wf m = true) (k : Nat) (v : α) : wf (set m k v) = true := by
  simp only [wf, decide_eq_true_eq] at h ⊢
  induction m with
  | nil => simp [set]
  | cons y m ih =>
    obtain ⟨k', v'⟩ := y
    obtain ⟨hhead, htail⟩ := List.pairwise_cons.1 h
    simp only [set]
    split
    · rename_i hlt
      refine List.pairwise_cons.2 ⟨fun x hx => ?_, h⟩
      rcases List.mem_cons.1 hx with rfl | hx
      · exact hlt
      · exact Nat.lt_trans hlt (hhead x hx)
    · split
      · rename_i heq
        subst heq
        exact List.pairwise_cons.2 ⟨hhead, htail⟩
      · refine List.pairwise_cons.2 ⟨fun x hx => ?_, ih htail⟩
        rcases mem_set hx with hx | rfl
        · exact hhead x hx
        · simp only
          omega

/-- An erasure keeps the keys strictly rising. -/
theorem wf_erase {m : List (Nat × α)} (h : wf m = true) (k : Nat) : wf (erase m k) = true := by
  simp only [wf, decide_eq_true_eq] at h ⊢
  induction m with
  | nil => simp [erase]
  | cons y m ih =>
    obtain ⟨k', v'⟩ := y
    obtain ⟨hhead, htail⟩ := List.pairwise_cons.1 h
    simp only [erase]
    split
    · exact ih htail
    · exact List.pairwise_cons.2 ⟨fun x hx => hhead x (mem_of_mem_erase hx), ih htail⟩

/-- A write keeps the canonical form of a table with a default: writing the default removes the entry. -/
theorem wfD_setD [DecidableEq α] {d : α} {m : List (Nat × α)} (h : wfD d m = true) (k : Nat) (v : α) :
    wfD d (setD d m k v) = true := by
  simp only [wfD, Bool.and_eq_true, List.all_eq_true, decide_eq_true_eq] at h ⊢
  unfold setD
  split
  · exact ⟨wf_erase h.1 k, fun x hx => h.2 x (mem_of_mem_erase hx)⟩
  · rename_i hv
    refine ⟨wf_set h.1 k v, fun x hx => ?_⟩
    rcases mem_set hx with hx | rfl
    · exact h.2 x hx
    · exact hv

end Sys2Proof.Machine.Table
end

