-- ==== Sys2Proof/Laws/Memory.lean ====
section
/-! SUPPORT. The laws of memory: reads after writes, and that every memory operation keeps the canonical form. -/

namespace Sys2Proof.Machine

/-- A byte read after a byte written. -/
theorem Memory.readByte_writeByte (m : Memory) (a : Nat) (b : Byte) (x : Nat) :
    (m.writeByte a b).readByte x = if x = a then some b else m.readByte x :=
  Table.get_set m a b x

/-- A byte read below the bytes written is as before. -/
theorem Memory.readByte_write_below (bs : List Byte) (m : Memory) {a x : Nat} (h : x < a) :
    (m.write a bs).readByte x = m.readByte x := by
  induction bs generalizing m a with
  | nil => rfl
  | cons b bs ih =>
    rw [Memory.write, ih (m.writeByte a b) (by omega), Memory.readByte_writeByte, if_neg (by omega)]

/-- A byte read after bytes written: inside them the byte written there, outside them as before. -/
theorem Memory.readByte_write (bs : List Byte) (m : Memory) (a x : Nat) :
    (m.write a bs).readByte x = if a ≤ x ∧ x < a + bs.length then bs[x - a]? else m.readByte x := by
  induction bs generalizing m a with
  | nil =>
    simp only [List.length_nil]
    rw [if_neg (by omega)]
    rfl
  | cons b bs ih =>
    rw [Memory.write]
    rcases Nat.lt_trichotomy x a with h | rfl | h
    · rw [Memory.readByte_write_below bs _ (by omega), Memory.readByte_writeByte, if_neg (by omega), if_neg (by omega)]
    · rw [Memory.readByte_write_below bs _ (by omega), Memory.readByte_writeByte]
      simp
    · obtain ⟨d, rfl⟩ : ∃ d, x = a + 1 + d := ⟨x - (a + 1), by omega⟩
      have hd : a + 1 + d - a = d + 1 := by omega
      have hd' : a + 1 + d - (a + 1) = d := by omega
      rw [ih, Memory.readByte_writeByte, if_neg (by omega : ¬ a + 1 + d = a), hd, hd', List.getElem?_cons_succ,
        List.length_cons]
      by_cases hlt : d < bs.length
      · rw [if_pos (by omega), if_pos (by omega)]
      · rw [if_neg (by omega), if_neg (by omega)]

/-- Fetching where bytes have just been written gives those bytes, as far as the fetch is long. -/
theorem Memory.prefetch_write (bs : List Byte) (m : Memory) (a : Nat) :
    (m.write a bs).prefetch a bs.length = bs := by
  induction bs generalizing m a with
  | nil => rfl
  | cons b bs ih =>
    rw [List.length_cons, Memory.prefetch, Memory.write, Memory.readByte_write_below bs _ (by omega),
      Memory.readByte_writeByte, if_pos rfl]
    simp only [List.cons.injEq, true_and]
    exact ih (m.writeByte a b) (a + 1)

/-- `MemWrite` keeps the canonical form. -/
theorem Memory.wf_write (bs : List Byte) {m : Memory} (h : m.wf = true) (a : Nat) : (m.write a bs).wf = true := by
  induction bs generalizing m a with
  | nil => exact h
  | cons b bs ih => exact ih (Table.wf_set h a b) (a + 1)

/-- Writing one byte keeps the canonical form. -/
theorem Memory.wf_writeByte {m : Memory} (h : m.wf = true) (a : Nat) (b : Byte) : (m.writeByte a b).wf = true :=
  Table.wf_set h a b

/-- Empty memory, as at reset, is canonical. -/
theorem Memory.wf_nil : Memory.wf [] = true := Table.wf_nil

end Sys2Proof.Machine
end

