-- ==== Sys2Proof/Laws/Ops.lean ====
section
/-! SUPPORT. The laws of the shared operations: pages, translation, the page check and its loop, the XSAVE registers, and
how an instruction's ending becomes an outcome. Each says once everything its operation can answer. -/

namespace Sys2Proof.Machine

/-! ### Pages -/

theorem page_add_off (a : Nat) : page a + off a = a := by
  unfold page off
  omega

theorem off_lt (a : Nat) : off a < 4096 := Nat.mod_lt _ (by omega)

theorem page_le (a : Nat) : page a ≤ a := by
  unfold page
  omega

@[simp] theorem off_page (a : Nat) : off (page a) = 0 := by
  unfold page off
  omega

@[simp] theorem page_page (a : Nat) : page (page a) = page a := by
  unfold page
  omega

/-- An address of a page is the page's base and an offset. -/
theorem page_eq_of_aligned {b k : Nat} (hb : b % 4096 = 0) (hk : k < 4096) : page (b + k) = b := by
  unfold page
  omega

theorem off_eq_of_aligned {b k : Nat} (hb : b % 4096 = 0) (hk : k < 4096) : off (b + k) = k := by
  unfold off
  omega

/-! ### Sequencing -/

/-- A sequence ends well exactly when its parts do. -/
theorem bind_ok_iff {ε α β : Type} {x : Except ε α} {f : α → Except ε β} {b : β} :
    (x >>= f) = .ok b ↔ ∃ a, x = .ok a ∧ f a = .ok b := by
  cases x with
  | error e => simp [bind, Except.bind]
  | ok a => simp [bind, Except.bind]

/-- A sequence ends early exactly where its first part does, or where the rest does after it. -/
theorem bind_error_iff {ε α β : Type} {x : Except ε α} {f : α → Except ε β} {e : ε} :
    (x >>= f) = .error e ↔ x = .error e ∨ ∃ a, x = .ok a ∧ f a = .error e := by
  cases x with
  | error e => simp [bind, Except.bind]
  | ok a => simp [bind, Except.bind]

@[simp] theorem finish_next_iff {x : Except Stop State} {t : State} : finish x = .next t ↔ x = .ok t := by
  rcases x with (_ | _) | _ <;> simp [finish]

@[simp] theorem finish_fault_iff {x : Except Stop State} {f : Fault} :
    finish x = .fault f ↔ x = .error (.raise f) := by
  rcases x with (_ | _) | _ <;> simp [finish]

@[simp] theorem finish_refused_iff {x : Except Stop State} {r : Refusal} :
    finish x = .refused r ↔ x = .error (.refuse r) := by
  rcases x with (_ | _) | _ <;> simp [finish]

/-! ### Translation -/

/-- Where the first address of the page of `a` resolves, `a` resolves to the same frame (R41 (b)). -/
theorem frameOf_of_page {s : State} {a f : Nat} (h : s.frameOf (page a) = some f) : s.frameOf a = some f := by
  unfold State.frameOf at h ⊢
  rw [page_page, off_page] at h
  split at h
  · simpa using h
  · simp at h

/-- `Translate` resolves an address exactly when it has a frame, and then keeps its offset. -/
theorem translate_ok_iff {s : State} {a p : Nat} :
    s.translate a = .ok p ↔ ∃ f, s.frameOf a = some f ∧ p = 4096 * f + off a := by
  unfold State.translate
  cases s.frameOf a <;> simp [eq_comm]

/-- Property (b) of R41: where the page of `a` resolves, `a` resolves to the same page at its own offset, and the page's
physical address is a multiple of 4096. -/
theorem translate_of_page {s : State} {a p : Nat} (h : s.translate (page a) = .ok p) :
    s.translate a = .ok (p + off a) ∧ p % 4096 = 0 := by
  obtain ⟨f, hf, rfl⟩ := translate_ok_iff.1 h
  rw [off_page]
  exact ⟨translate_ok_iff.2 ⟨f, frameOf_of_page hf, rfl⟩, by omega⟩

/-- An address that resolves keeps its offset (log entry 9, from R90). -/
theorem translate_off {s : State} {a p : Nat} (h : s.translate a = .ok p) : off p = off a := by
  obtain ⟨f, -, rfl⟩ := translate_ok_iff.1 h
  unfold off
  omega

/-! ### The check of a page -/

/-- The nine parts of `PageOK` (R77). -/
theorem pageOk_iff {s : State} {o : Nat} {ty : PageType} {a p : Nat} :
    s.pageOk o ty a p = true ↔
      ∃ e, s.epcmAt p = some e ∧ e.valid = true ∧ e.blocked = false ∧ e.pending = false ∧ e.modified = false ∧
        e.enclaveAddress = page a ∧ e.pt = ty ∧ e.enclaveSecs = o ∧ e.r = true ∧ e.w = true := by
  unfold State.pageOk
  cases h : s.epcmAt p with
  | none => simp
  | some e => simp [EpcmEntry.accepts, and_assoc]

theorem checkPage_ok_iff {s : State} {o : Nat} {ty : PageType} {a p : Nat} :
    s.checkPage o ty a = .ok p ↔ s.translate a = .ok p ∧ s.pageOk o ty a p = true := by
  unfold State.checkPage
  cases h : s.translate a with
  | fault e => simp [raise]
  | ok q =>
    simp only [TranslateResult.ok.injEq]
    split
    · rename_i hq
      simp only [Except.ok.injEq]
      exact ⟨fun hp => ⟨hp, hp ▸ hq⟩, fun hp => hp.1⟩
    · rename_i hq
      simp only [raise, reduceCtorEq, false_iff, not_and]
      rintro rfl
      exact hq

/-- A page check ends early in two ways: the translation's own fault, or `#PF` at the checked address. -/
theorem checkPage_error_iff {s : State} {o : Nat} {ty : PageType} {a : Nat} {x : Stop} :
    s.checkPage o ty a = .error x ↔
      (∃ e, s.translate a = .fault e ∧ x = .raise (.translation e)) ∨
      (∃ p, s.translate a = .ok p ∧ s.pageOk o ty a p = false ∧ x = .raise (.pf a (s.pfErrorCode a))) := by
  unfold State.checkPage
  cases h : s.translate a with
  | fault e => simp [raise, eq_comm (a := x)]
  | ok q =>
    simp only [TranslateResult.ok.injEq, reduceCtorEq, false_and, exists_false, false_or, exists_eq_left']
    split
    · rename_i hq
      simp [hq]
    · rename_i hq
      simp [raise, hq, eq_comm (a := x)]

/-- The loop of page checks passes exactly when every page passes, in order. -/
theorem checkPages_ok_iff {s : State} {o : Nat} {ty : PageType} {as ps : List Nat} :
    s.checkPages o ty as = .ok ps ↔ List.Forall₂ (fun a p => s.checkPage o ty a = .ok p) as ps := by
  induction as generalizing ps with
  | nil => cases ps <;> simp [State.checkPages]
  | cons a as ih =>
    simp only [State.checkPages, bind_ok_iff, ih, Except.ok.injEq]
    constructor
    · rintro ⟨p, hp, qs, hqs, rfl⟩
      exact List.Forall₂.cons hp hqs
    · rintro (_ | ⟨hp, hqs⟩)
      exact ⟨_, hp, _, hqs, rfl⟩

/-- The loop of page checks ends early at its first page that does not pass. -/
theorem checkPages_error_iff {s : State} {o : Nat} {ty : PageType} {as : List Nat} {x : Stop} :
    s.checkPages o ty as = .error x ↔
      ∃ before a after, as = before ++ a :: after ∧ (∀ b ∈ before, ∃ p, s.checkPage o ty b = .ok p) ∧
        s.checkPage o ty a = .error x := by
  induction as with
  | nil => simp [State.checkPages]
  | cons a as ih =>
    simp only [State.checkPages, bind_error_iff, ih, reduceCtorEq, and_false, exists_false, or_false]
    constructor
    · rintro (h | ⟨p, hp, before, b, after, rfl, hbefore, hb⟩)
      · exact ⟨[], a, as, rfl, by simp, h⟩
      · refine ⟨a :: before, b, after, rfl, ?_, hb⟩
        rintro c (_ | ⟨_, hc⟩)
        · exact ⟨p, hp⟩
        · exact hbefore c hc
    · rintro ⟨before, b, after, heq, hbefore, hb⟩
      cases before with
      | nil =>
        obtain ⟨rfl, rfl⟩ := List.cons.inj heq
        exact .inl hb
      | cons c before =>
        obtain ⟨rfl, rfl⟩ := List.cons.inj heq
        obtain ⟨p, hp⟩ := hbefore a (by simp)
        exact .inr ⟨p, hp, before, b, after, rfl, fun d hd => hbefore d (by simp [hd]), hb⟩

/-! ### The XSAVE page registers -/

/-- What the XSAVE registers hold after a run of writes from element `k` on. -/
theorem getD_writeXsavePages (ps : List Nat) (m : List (Nat × Nat)) (k n : Nat) :
    Table.getD 0 (writeXsavePages m k ps) n =
      if k ≤ n ∧ n < k + ps.length then ps.getD (n - k) 0 else Table.getD 0 m n := by
  induction ps generalizing m k with
  | nil =>
    simp only [writeXsavePages, List.length_nil]
    rw [if_neg (by omega)]
  | cons p ps ih =>
    rw [writeXsavePages, ih, Table.getD_setD, List.length_cons]
    rcases Nat.lt_trichotomy n k with h | rfl | h
    · rw [if_neg (by omega), if_neg (by omega), if_neg (by omega)]
    · rw [if_neg (by omega), if_pos rfl, if_pos (by omega)]
      simp
    · obtain ⟨d, rfl⟩ : ∃ d, n = k + 1 + d := ⟨n - (k + 1), by omega⟩
      have hd : k + 1 + d - k = d + 1 := by omega
      have hd' : k + 1 + d - (k + 1) = d := by omega
      rw [hd, hd', List.getD_cons_succ, if_neg (by omega : ¬ k + 1 + d = k)]
      by_cases hlt : d < ps.length
      · rw [if_pos (by omega), if_pos (by omega)]
      · rw [if_neg (by omega), if_neg (by omega)]

/-- Writing the XSAVE registers keeps their canonical form. -/
theorem wfD_writeXsavePages (ps : List Nat) {m : List (Nat × Nat)} (h : Table.wfD 0 m = true) (k : Nat) :
    Table.wfD 0 (writeXsavePages m k ps) = true := by
  induction ps generalizing m k with
  | nil => exact h
  | cons p ps ih => exact ih (Table.wfD_setD h k p) (k + 1)

/-! ### The visited pages -/

@[simp] theorem visitedPages_length (c : Config) (t : Tcs) (e : Secs) :
    (visitedPages c t e).length = framePages c e := by
  simp [visitedPages]

theorem mem_visitedPages {c : Config} {t : Tcs} {e : Secs} {a : Nat} :
    a ∈ visitedPages c t e ↔ ∃ n < framePages c e, tmpSsa t e + 4096 * n = a := by
  simp [visitedPages]

end Sys2Proof.Machine
end

