-- ==== Sys2Proof/Laws/State.lean ====
section
/-! SUPPORT. What each update of State leaves in each field: one lemma a field, by definition, so that no proof unfolds a
record update. The two updates are the launch of an instruction and the commit of EDECCSSA. -/

namespace Sys2Proof.Machine

variable (s : State)

@[simp] theorem State.launchBytes_config (bs : List Byte) : (s.launchBytes bs).config = s.config := rfl
@[simp] theorem State.launchBytes_rax (bs : List Byte) :
    (s.launchBytes bs).rax = s.rax.extractLsb' 32 32 ++ edeccssaLeaf := rfl
@[simp] theorem State.launchBytes_otherRegs (bs : List Byte) : (s.launchBytes bs).otherRegs = s.otherRegs := rfl
@[simp] theorem State.launchBytes_flags (bs : List Byte) : (s.launchBytes bs).flags = s.flags := rfl
@[simp] theorem State.launchBytes_pc (bs : List Byte) : (s.launchBytes bs).pc = s.pc := rfl
@[simp] theorem State.launchBytes_inEnclave (bs : List Byte) : (s.launchBytes bs).inEnclave = s.inEnclave := rfl
@[simp] theorem State.launchBytes_mode64 (bs : List Byte) : (s.launchBytes bs).mode64 = s.mode64 := rfl
@[simp] theorem State.launchBytes_encluReady (bs : List Byte) : (s.launchBytes bs).encluReady = true := rfl
@[simp] theorem State.launchBytes_ds (bs : List Byte) : (s.launchBytes bs).ds = s.ds := rfl
@[simp] theorem State.launchBytes_crTcsPa (bs : List Byte) : (s.launchBytes bs).crTcsPa = s.crTcsPa := rfl
@[simp] theorem State.launchBytes_crActiveSecs (bs : List Byte) :
    (s.launchBytes bs).crActiveSecs = s.crActiveSecs := rfl
@[simp] theorem State.launchBytes_crGprPa (bs : List Byte) : (s.launchBytes bs).crGprPa = s.crGprPa := rfl
@[simp] theorem State.launchBytes_crXsavePage (bs : List Byte) : (s.launchBytes bs).crXsavePage = s.crXsavePage := rfl
@[simp] theorem State.launchBytes_crCetSaveAreaPa (bs : List Byte) :
    (s.launchBytes bs).crCetSaveAreaPa = s.crCetSaveAreaPa := rfl
@[simp] theorem State.launchBytes_tcss (bs : List Byte) : (s.launchBytes bs).tcss = s.tcss := rfl
@[simp] theorem State.launchBytes_secss (bs : List Byte) : (s.launchBytes bs).secss = s.secss := rfl
@[simp] theorem State.launchBytes_epcm (bs : List Byte) : (s.launchBytes bs).epcm = s.epcm := rfl
@[simp] theorem State.launchBytes_pageMap (bs : List Byte) : (s.launchBytes bs).pageMap = s.pageMap := rfl
@[simp] theorem State.launchBytes_addrMap (bs : List Byte) : (s.launchBytes bs).addrMap = s.addrMap := rfl
@[simp] theorem State.launchBytes_pageFaults (bs : List Byte) : (s.launchBytes bs).pageFaults = s.pageFaults := rfl
@[simp] theorem State.launchBytes_mem (bs : List Byte) : (s.launchBytes bs).mem = s.mem := rfl
@[simp] theorem State.launchBytes_text (bs : List Byte) :
    (s.launchBytes bs).text = Memory.write s.text s.pc.toNat bs := rfl
@[simp] theorem State.launchBytes_freeDraws (bs : List Byte) : (s.launchBytes bs).freeDraws = s.freeDraws := rfl

@[simp] theorem commitFrame_config (x : Context) (f : FrameAddrs) : (commitFrame s x f).config = s.config := rfl
@[simp] theorem commitFrame_rax (x : Context) (f : FrameAddrs) : (commitFrame s x f).rax = s.rax := rfl
@[simp] theorem commitFrame_otherRegs (x : Context) (f : FrameAddrs) :
    (commitFrame s x f).otherRegs = s.otherRegs := rfl
@[simp] theorem commitFrame_flags (x : Context) (f : FrameAddrs) : (commitFrame s x f).flags = s.flags := rfl
@[simp] theorem commitFrame_pc (x : Context) (f : FrameAddrs) :
    (commitFrame s x f).pc = s.pc + BitVec.ofNat 64 s.config.instrLen := rfl
@[simp] theorem commitFrame_inEnclave (x : Context) (f : FrameAddrs) :
    (commitFrame s x f).inEnclave = s.inEnclave := rfl
@[simp] theorem commitFrame_mode64 (x : Context) (f : FrameAddrs) : (commitFrame s x f).mode64 = s.mode64 := rfl
@[simp] theorem commitFrame_encluReady (x : Context) (f : FrameAddrs) :
    (commitFrame s x f).encluReady = s.encluReady := rfl
@[simp] theorem commitFrame_ds (x : Context) (f : FrameAddrs) : (commitFrame s x f).ds = s.ds := rfl
@[simp] theorem commitFrame_crTcsPa (x : Context) (f : FrameAddrs) : (commitFrame s x f).crTcsPa = s.crTcsPa := rfl
@[simp] theorem commitFrame_crActiveSecs (x : Context) (f : FrameAddrs) :
    (commitFrame s x f).crActiveSecs = s.crActiveSecs := rfl
@[simp] theorem commitFrame_crGprPa (x : Context) (f : FrameAddrs) : (commitFrame s x f).crGprPa = f.gpr := rfl
@[simp] theorem commitFrame_crXsavePage (x : Context) (f : FrameAddrs) :
    (commitFrame s x f).crXsavePage = writeXsavePages s.crXsavePage 0 f.xsave := rfl
@[simp] theorem commitFrame_crCetSaveAreaPa (x : Context) (f : FrameAddrs) :
    (commitFrame s x f).crCetSaveAreaPa = f.cet.getD s.crCetSaveAreaPa := rfl
@[simp] theorem commitFrame_tcss (x : Context) (f : FrameAddrs) :
    (commitFrame s x f).tcss = Table.set s.tcss s.crTcsPa { x.tcs with cssa := x.tcs.cssa - 1 } := rfl
@[simp] theorem commitFrame_secss (x : Context) (f : FrameAddrs) : (commitFrame s x f).secss = s.secss := rfl
@[simp] theorem commitFrame_epcm (x : Context) (f : FrameAddrs) : (commitFrame s x f).epcm = s.epcm := rfl
@[simp] theorem commitFrame_pageMap (x : Context) (f : FrameAddrs) : (commitFrame s x f).pageMap = s.pageMap := rfl
@[simp] theorem commitFrame_addrMap (x : Context) (f : FrameAddrs) : (commitFrame s x f).addrMap = s.addrMap := rfl
@[simp] theorem commitFrame_pageFaults (x : Context) (f : FrameAddrs) :
    (commitFrame s x f).pageFaults = s.pageFaults := rfl
@[simp] theorem commitFrame_mem (x : Context) (f : FrameAddrs) : (commitFrame s x f).mem = s.mem := rfl
@[simp] theorem commitFrame_text (x : Context) (f : FrameAddrs) : (commitFrame s x f).text = s.text := rfl
@[simp] theorem commitFrame_freeDraws (x : Context) (f : FrameAddrs) :
    (commitFrame s x f).freeDraws = s.freeDraws := rfl

end Sys2Proof.Machine
end

