-- ==== Sys2Proof/Laws/Enclu.lean ====
section
/-! SUPPORT. What ENCLU[EDECCSSA] can do, said once part by part and then as a whole: `edeccssaResult_ok_iff` for
completion, `edeccssaResult_error_iff` for every early end. -/

namespace Sys2Proof.Machine

theorem reachLeaf_ok_iff {s : State} {u : Unit} :
    reachLeaf s = .ok u ↔ s.encluReady = true ∧ s.config.supported = true := by
  unfold reachLeaf
  cases s.encluReady <;> cases s.config.supported <;> simp [refuse]

theorem reachLeaf_error_iff {s : State} {x : Stop} :
    reachLeaf s = .error x ↔
      (s.encluReady = false ∧ x = .refuse .encluNotReady) ∨
      (s.encluReady = true ∧ s.config.supported = false ∧ x = .refuse .unsupported) := by
  unfold reachLeaf
  cases s.encluReady <;> cases s.config.supported <;> simp [refuse, eq_comm (a := x)]

theorem entryChecks_ok_iff {s : State} {t : Tcs} :
    entryChecks s = .ok t ↔ s.inEnclave = true ∧ s.currentTcs = some t ∧ t.cssa ≠ 0 := by
  unfold entryChecks
  cases s.inEnclave with
  | false => simp [raise]
  | true =>
    cases s.currentTcs with
    | none => simp [refuse]
    | some t' =>
      by_cases h : t'.cssa = 0
      · simp only [Bool.not_true, Bool.false_eq_true, if_false, h, if_true, raise]
        simp only [reduceCtorEq, Option.some.injEq, true_and, false_iff, not_and, not_not]
        rintro rfl
        exact h
      · simp only [Bool.not_true, Bool.false_eq_true, if_false, h, Except.ok.injEq, Option.some.injEq, true_and]
        exact ⟨fun ht => ⟨ht, ht ▸ h⟩, fun ht => ht.1⟩

theorem entryChecks_error_iff {s : State} {x : Stop} :
    entryChecks s = .error x ↔
      (s.inEnclave = false ∧ x = .raise .gp0) ∨
      (s.inEnclave = true ∧ s.currentTcs = none ∧ x = .refuse .noCurrentTcs) ∨
      (s.inEnclave = true ∧ (∃ t, s.currentTcs = some t ∧ t.cssa = 0) ∧ x = .raise .gp0) := by
  unfold entryChecks
  cases s.inEnclave with
  | false => simp [raise, eq_comm]
  | true =>
    cases s.currentTcs with
    | none => simp [refuse, eq_comm]
    | some t' => by_cases h : t'.cssa = 0 <;> simp [raise, h, eq_comm]

theorem enclaveContext_ok_iff {s : State} {t : Tcs} {x : Context} :
    enclaveContext s t = .ok x ↔ x.tcs = t ∧ s.activeSecs = some x.secs ∧ s.tcsOwner = some x.owner ∧
      s.tcsValid = true := by
  unfold enclaveContext
  obtain ⟨t', e', o'⟩ := x
  cases s.activeSecs <;> cases s.tcsOwner <;> cases s.tcsValid <;> simp [refuse, eq_comm]

theorem enclaveContext_error_iff {s : State} {t : Tcs} {x : Stop} :
    enclaveContext s t = .error x ↔
      (s.activeSecs = none ∧ x = .refuse .noActiveSecs) ∨
      ((∃ e, s.activeSecs = some e) ∧ s.tcsOwner = none ∧ x = .refuse .noTcsEpcmEntry) ∨
      ((∃ e, s.activeSecs = some e) ∧ (∃ o, s.tcsOwner = some o) ∧ s.tcsValid = false ∧
        x = .refuse .tcsNotValid) := by
  unfold enclaveContext
  cases s.activeSecs <;> cases s.tcsOwner <;> cases s.tcsValid <;> simp [refuse, eq_comm]

/-- Where no premise fails, every premise of R97 and bound of R98 holds. -/
theorem failedPremise_none_iff {s : State} {x : Context} :
    failedPremise s x = none ↔
      (x.tcs.ossa + x.secs.baseAddr) % 4096 = 0 ∧ 1 ≤ x.secs.ssaFrameSize ∧ 1 ≤ s.config.gprsgxSize ∧
      s.config.gprsgxSize ≤ 4096 ∧ 1 ≤ tmpXsize s.config x.secs ∧
      tmpSsa x.tcs x.secs + 4096 * x.secs.ssaFrameSize ≤ 2 ^ s.width ∧
      tmpSsa x.tcs x.secs + 4096 * framePages s.config x.secs ≤ 2 ^ s.width ∧
      (cetGate s.config x.secs = true → tmpCetSaveArea x.tcs x.secs + 16 ≤ 2 ^ s.width) ∧
      s.pc.toNat + s.config.instrLen < 2 ^ s.width := by
  unfold failedPremise
  simp only
  split_ifs with h1 h2 h3 h4 h5 h6 h7 h8
  · simp [h1]
  · simp [h2]
  · simp only [false_iff, not_and]; omega
  · simp only [false_iff, not_and]; omega
  · simp only [false_iff, not_and]; omega
  · simp only [false_iff, not_and]; omega
  · simp only [false_iff, not_and]
    intro _ _ _ _ _ _ _ h
    exact absurd (h h7.1) (by omega)
  · simp only [false_iff, not_and]; omega
  · simp only [true_iff]
    refine ⟨by omega, by omega, by omega, by omega, by omega, by omega, by omega, fun hc => ?_, by omega⟩
    by_contra hlt
    exact h7 ⟨hc, by omega⟩

/-- A failed premise is one of these six refusals. -/
theorem failedPremise_some {s : State} {x : Context} {r : Refusal} (h : failedPremise s x = some r) :
    r = .premiseFrameAlignment ∨ r = .premiseFrameSize ∨ r = .premiseGprSize ∨ r = .premiseXsaveSize ∨
      r = .addressOverflow ∨ r = .pcOverflow := by
  unfold failedPremise at h
  simp only at h
  split_ifs at h <;> simp_all

theorem checkPremises_ok_iff {s : State} {x : Context} {u : Unit} :
    checkPremises s x = .ok u ↔ failedPremise s x = none := by
  unfold checkPremises
  cases failedPremise s x <;> simp [refuse]

theorem checkPremises_error_iff {s : State} {x : Context} {y : Stop} :
    checkPremises s x = .error y ↔ ∃ r, failedPremise s x = some r ∧ y = .refuse r := by
  unfold checkPremises
  cases failedPremise s x <;> simp [refuse, eq_comm]

theorem checkDs_ok_iff {s : State} {x : Context} {u : Unit} :
    checkDs s x = .ok u ↔ (s.mode64 = false → s.inDs (gprLast s.config x.tcs x.secs) = true) := by
  unfold checkDs
  cases s.mode64 <;> cases s.inDs (gprLast s.config x.tcs x.secs) <;> simp [raise]

theorem checkDs_error_iff {s : State} {x : Context} {y : Stop} :
    checkDs s x = .error y ↔
      s.mode64 = false ∧ s.inDs (gprLast s.config x.tcs x.secs) = false ∧ y = .raise .gp0 := by
  unfold checkDs
  cases s.mode64 <;> cases s.inDs (gprLast s.config x.tcs x.secs) <;> simp [raise, eq_comm]

theorem checkCet_ok_iff {s : State} {x : Context} {c : Option Nat} :
    checkCet s x = .ok c ↔
      (cetGate s.config x.secs = false ∧ c = none) ∨
      (cetGate s.config x.secs = true ∧ ∃ p, s.checkPage x.owner .ssRest (tmpCetSavePage x.tcs x.secs) = .ok p ∧
        c = some (p + off (tmpCetSaveArea x.tcs x.secs))) := by
  unfold checkCet
  cases cetGate s.config x.secs with
  | false => simp [eq_comm]
  | true => simp [bind_ok_iff, eq_comm (b := c)]

theorem checkCet_error_iff {s : State} {x : Context} {y : Stop} :
    checkCet s x = .error y ↔
      cetGate s.config x.secs = true ∧ s.checkPage x.owner .ssRest (tmpCetSavePage x.tcs x.secs) = .error y := by
  unfold checkCet
  cases cetGate s.config x.secs with
  | false => simp
  | true => simp [bind_error_iff]

/-- The frame's checks pass exactly when each of their four parts does. -/
theorem checkFrame_ok_iff {s : State} {x : Context} {f : FrameAddrs} :
    checkFrame s x = .ok f ↔
      s.checkPages x.owner .reg (visitedPages s.config x.tcs x.secs) = .ok f.xsave ∧
      s.checkPage x.owner .reg (tmpGpr s.config x.tcs x.secs) = .ok f.gpr ∧
      checkDs s x = .ok () ∧ checkCet s x = .ok f.cet := by
  obtain ⟨ps, g, c⟩ := f
  unfold checkFrame
  simp only [bind_ok_iff, Except.ok.injEq, FrameAddrs.mk.injEq]
  constructor
  · rintro ⟨ps', hps, g', hg, u, hd, c', hc, rfl, rfl, rfl⟩
    exact ⟨hps, hg, hd, hc⟩
  · rintro ⟨hps, hg, hd, hc⟩
    exact ⟨ps, hps, g, hg, (), hd, c, hc, rfl, rfl, rfl⟩

/-- The frame's checks end early at the first part that does not pass, in the order of R115. -/
theorem checkFrame_error_iff {s : State} {x : Context} {y : Stop} :
    checkFrame s x = .error y ↔
      s.checkPages x.owner .reg (visitedPages s.config x.tcs x.secs) = .error y ∨
      (∃ ps, s.checkPages x.owner .reg (visitedPages s.config x.tcs x.secs) = .ok ps ∧
        (s.checkPage x.owner .reg (tmpGpr s.config x.tcs x.secs) = .error y ∨
        ∃ g, s.checkPage x.owner .reg (tmpGpr s.config x.tcs x.secs) = .ok g ∧
          (checkDs s x = .error y ∨ checkDs s x = .ok () ∧ checkCet s x = .error y))) := by
  unfold checkFrame
  simp only [bind_error_iff, reduceCtorEq, and_false, exists_false, or_false, Unique.exists_iff]

/-- Everything a completing EDECCSSA does: each part of R99 has passed, and the state is the commit of what the checks
collected. -/
theorem edeccssaResult_ok_iff {s t : State} :
    edeccssaResult s = .ok t ↔
      ∃ x f, reachLeaf s = .ok () ∧ entryChecks s = .ok x.tcs ∧ enclaveContext s x.tcs = .ok x ∧
        failedPremise s x = none ∧ checkFrame s x = .ok f ∧ t = commitFrame s x f := by
  unfold edeccssaResult
  simp only [bind_ok_iff, Except.ok.injEq]
  constructor
  · rintro ⟨_, hr, tcs, ht, x, hx, _, hp, f, hf, rfl⟩
    obtain ⟨rfl, -⟩ := enclaveContext_ok_iff.1 hx
    exact ⟨x, f, hr, ht, hx, checkPremises_ok_iff.1 hp, hf, rfl⟩
  · rintro ⟨x, f, hr, ht, hx, hp, hf, rfl⟩
    exact ⟨(), hr, x.tcs, ht, x, hx, (), checkPremises_ok_iff.2 hp, f, hf, rfl⟩

/-- Everything a stopping EDECCSSA can stop on, in the order of R99. -/
theorem edeccssaResult_error_iff {s : State} {y : Stop} :
    edeccssaResult s = .error y ↔
      reachLeaf s = .error y ∨
      (reachLeaf s = .ok () ∧
        (entryChecks s = .error y ∨
        ∃ t, entryChecks s = .ok t ∧
          (enclaveContext s t = .error y ∨
          ∃ x, enclaveContext s t = .ok x ∧
            (checkPremises s x = .error y ∨
            failedPremise s x = none ∧ checkFrame s x = .error y)))) := by
  unfold edeccssaResult
  simp only [bind_error_iff, reduceCtorEq, and_false, exists_false, or_false]
  constructor
  · rintro (h | ⟨_, hr, h | ⟨t, ht, h | ⟨x, hx, h | ⟨_, hp, h⟩⟩⟩⟩)
    · exact .inl h
    · exact .inr ⟨hr, .inl h⟩
    · exact .inr ⟨hr, .inr ⟨t, ht, .inl h⟩⟩
    · exact .inr ⟨hr, .inr ⟨t, ht, .inr ⟨x, hx, .inl h⟩⟩⟩
    · exact .inr ⟨hr, .inr ⟨t, ht, .inr ⟨x, hx, .inr ⟨checkPremises_ok_iff.1 hp, h⟩⟩⟩⟩
  · rintro (h | ⟨hr, h | ⟨t, ht, h | ⟨x, hx, h | ⟨hp, h⟩⟩⟩⟩)
    · exact .inl h
    · exact .inr ⟨(), hr, .inl h⟩
    · exact .inr ⟨(), hr, .inr ⟨t, ht, .inl h⟩⟩
    · exact .inr ⟨(), hr, .inr ⟨t, ht, .inr ⟨x, hx, .inl h⟩⟩⟩
    · exact .inr ⟨(), hr, .inr ⟨t, ht, .inr ⟨x, hx, .inr ⟨(), checkPremises_ok_iff.2 hp, h⟩⟩⟩⟩

theorem exec_next_iff {s t : State} : exec .edeccssa s = .next t ↔ edeccssaResult s = .ok t := finish_next_iff

theorem exec_fault_iff {s : State} {f : Fault} :
    exec .edeccssa s = .fault f ↔ edeccssaResult s = .error (.raise f) := finish_fault_iff

theorem exec_refused_iff {s : State} {r : Refusal} :
    exec .edeccssa s = .refused r ↔ edeccssaResult s = .error (.refuse r) := finish_refused_iff

/-- R91 in one line: the commit leaves element `n` of the XSAVE registers at the address collected for page `n`, or as
before. -/
theorem xsavePage_commitFrame (s : State) (x : Context) (f : FrameAddrs) (n : Nat) :
    (commitFrame s x f).xsavePage n = if n < f.xsave.length then f.xsave.getD n 0 else s.xsavePage n := by
  unfold State.xsavePage
  rw [commitFrame_crXsavePage, getD_writeXsavePages]
  simp

/-- The current TCS after the commit (R89). -/
theorem currentTcs_commitFrame (s : State) (x : Context) (f : FrameAddrs) :
    (commitFrame s x f).currentTcs = some { x.tcs with cssa := x.tcs.cssa - 1 } :=
  Table.get_set_self _ _ _

end Sys2Proof.Machine
end

