-- ==== Sys2Proof/Laws/Encoding.lean ====
section
/-! SUPPORT. The laws of decoding and encoding: what decoding accepts, and that no prefix byte begins ENCLU. -/

namespace Sys2Proof

/-- Decoding accepts exactly the three bytes of ENCLU under EAX = 09H, and leaves the bytes after them (R62, R64). -/
theorem decode_ok_iff {eax : BitVec 32} {bs : List Byte} {i : Instr} {rest : List Byte} :
    decode eax bs = .ok (i, rest) ↔
      eax = edeccssaLeaf ∧ i = .edeccssa ∧ bs = encluByte0 :: encluByte1 :: encluByte2 :: rest := by
  rcases bs with _ | ⟨b0, _ | ⟨b1, _ | ⟨b2, bs⟩⟩⟩
  · simp [decode]
  · simp [decode]
  · simp [decode]
  · simp only [decode]
    split
    · rename_i hb
      obtain ⟨rfl, rfl, rfl⟩ := hb
      split
      · simp_all [eq_comm]
      · simp_all
    · rename_i hb
      simp only [reduceCtorEq, List.cons.injEq, false_iff, not_and]
      intro _ _ h0 h1 h2 _
      exact hb ⟨h0, h1, h2⟩

/-- No prefix byte is the first byte of ENCLU. -/
theorem EncluPrefix.byte_ne (p : EncluPrefix) : p.byte ≠ encluByte0 := by
  cases p with
  | rex wrxb =>
    intro h
    have := congrArg (fun b : Byte => b.extractLsb' 4 4) h
    revert wrxb
    decide
  | _ => decide

end Sys2Proof
end

