-- ==== Sys2Proof/Laws/Step.lean ====
section
/-! SUPPORT. What one step can do, and what a launched word leaves for the fetch to read. -/

namespace Sys2Proof.Machine

/-- A step completes exactly when ENCLU stands at `pc` under EAX = 09H and its meaning completes. -/
theorem step_next_iff {s t : State} :
    step s = .next t ↔ (∃ rest, decode s.eax s.fetchBytes = .ok (.edeccssa, rest)) ∧ exec .edeccssa s = .next t := by
  unfold step
  cases h : decode s.eax s.fetchBytes with
  | error e => simp
  | ok r =>
    obtain ⟨i, rest⟩ := r
    cases i
    simp

/-- A step faults exactly when ENCLU stands at `pc` under EAX = 09H and its meaning faults. -/
theorem step_fault_iff {s : State} {f : Fault} :
    step s = .fault f ↔ (∃ rest, decode s.eax s.fetchBytes = .ok (.edeccssa, rest)) ∧ exec .edeccssa s = .fault f := by
  unfold step
  cases h : decode s.eax s.fetchBytes with
  | error e => simp
  | ok r =>
    obtain ⟨i, rest⟩ := r
    cases i
    simp

/-- The launched bytes are what the next fetch reads. -/
theorem fetchBytes_launchBytes (s : State) {bs : List Byte} (h : bs.length = maxInstrBytes) :
    (s.launchBytes bs).fetchBytes = bs := by
  unfold State.fetchBytes
  rw [State.launchBytes_text, State.launchBytes_pc, ← h]
  exact Memory.prefetch_write bs s.text s.pc.toNat

/-- A launched state has 09H in EAX. -/
theorem eax_launchBytes (s : State) (bs : List Byte) : (s.launchBytes bs).eax = edeccssaLeaf := by
  unfold State.eax
  rw [State.launchBytes_rax]
  exact BitVec.setWidth_append_eq_right

end Sys2Proof.Machine
end

