-- ==== Sys2Proof/Laws/Checks.lean ====
section
/-! SUPPORT. The bridge between the meaning's checks, which compute, and the predicates claims are stated in. -/

namespace Sys2Proof.Machine

theorem usablePage_iff {s : State} {o : Nat} {ty : PageType} {a p : Nat} :
    UsablePage s o ty a p ↔ s.pageOk o ty a p = true := pageOk_iff.symm

theorem not_usablePage_iff {s : State} {o : Nat} {ty : PageType} {a p : Nat} :
    ¬ UsablePage s o ty a p ↔ s.pageOk o ty a p = false := by
  rw [usablePage_iff, Bool.not_eq_true]

theorem pagePasses_iff {s : State} {o : Nat} {ty : PageType} {a p : Nat} :
    PagePasses s o ty a p ↔ s.checkPage o ty a = .ok p := by
  rw [checkPage_ok_iff]
  exact ⟨fun h => ⟨h.resolves, usablePage_iff.1 h.usable⟩, fun h => ⟨h.1, usablePage_iff.2 h.2⟩⟩

/-- The bound of R98 on the visited pages is the bound on the last of them. -/
theorem pagesFit_iff {c : Config} {t : Tcs} {e : Secs} {b : Nat} (h : 1 ≤ tmpXsize c e) :
    (∀ a ∈ visitedPages c t e, a + 4096 ≤ b) ↔ tmpSsa t e + 4096 * framePages c e ≤ b := by
  have hn : 1 ≤ framePages c e := by
    unfold framePages xsavePageCount
    omega
  constructor
  · intro hall
    have := hall (tmpSsa t e + 4096 * (framePages c e - 1)) (mem_visitedPages.2 ⟨_, by omega, rfl⟩)
    omega
  · rintro hb a ha
    obtain ⟨n, hlt, rfl⟩ := mem_visitedPages.1 ha
    omega

/-- A state is ready exactly when the meaning's entry checks, structures and premises all pass. -/
theorem ready_iff {s : State} {t : Tcs} {e : Secs} {o : Nat} :
    Ready s t e o ↔
      reachLeaf s = .ok () ∧ entryChecks s = .ok t ∧
        enclaveContext s t = .ok { tcs := t, secs := e, owner := o } ∧
        failedPremise s { tcs := t, secs := e, owner := o } = none := by
  rw [reachLeaf_ok_iff, entryChecks_ok_iff, enclaveContext_ok_iff, failedPremise_none_iff]
  constructor
  · intro h
    exact ⟨⟨h.encluReady, h.supported⟩, ⟨h.inEnclave, h.tcs, h.cssa⟩, ⟨rfl, h.secs, h.owner, h.tcsValid⟩, h.aligned,
      h.frameSize, h.gprSizePos, h.gprSizeMax, h.xsaveSize, h.frameFits, (pagesFit_iff h.xsaveSize).1 h.pagesFit, h.cetFits, h.pcFits⟩
  · rintro ⟨⟨h1, h2⟩, ⟨h3, h4, h5⟩, ⟨-, h6, h7, h7'⟩, h8, h9, h10, h11, h12, h13, h14, h15, h16⟩
    exact ⟨h1, h2, h3, h4, h5, h6, h7, h7', h8, h9, h10, h11, h12, h13, (pagesFit_iff h12).2 h14, h15, h16⟩

/-- The loop's checks pass exactly when every XSAVE page does. -/
theorem checkPages_visited_iff {s : State} {t : Tcs} {e : Secs} {o : Nat} {ps : List Nat} :
    s.checkPages o .reg (visitedPages s.config t e) = .ok ps ↔
      ps.length = framePages s.config e ∧ XsavePagesPass s t e o fun n => ps.getD n 0 := by
  rw [checkPages_ok_iff, List.forall₂_iff_get]
  simp only [visitedPages_length, List.get_eq_getElem]
  constructor
  · rintro ⟨hlen, hall⟩
    refine ⟨hlen.symm, fun n hn => pagePasses_iff.2 ?_⟩
    have := hall n hn (by omega)
    simp only [visitedPages, List.getElem_map, List.getElem_range] at this
    simp only [this, List.getD_eq_getElem?_getD, List.getElem?_eq_getElem (by omega : n < ps.length), Option.getD_some]
  · rintro ⟨hlen, hall⟩
    refine ⟨hlen.symm, fun n hn hn' => ?_⟩
    have := pagePasses_iff.1 (hall n hn)
    simp only [visitedPages, List.getElem_map, List.getElem_range]
    simp only [this, List.getD_eq_getElem?_getD, List.getElem?_eq_getElem (by omega : n < ps.length), Option.getD_some]

/-- The inversion of a completing EDECCSSA: what held before, what the checks collected, and the commit that followed. -/
theorem exec_next_cases {s u : State} (h : exec .edeccssa s = .next u) :
    ∃ t e o f, Ready s t e o ∧
      f.xsave.length = framePages s.config e ∧ XsavePagesPass s t e o (fun n => f.xsave.getD n 0) ∧
      GprAreaPasses s t e o f.gpr ∧ DsPasses s t e ∧
      ((cetGate s.config e = false ∧ f.cet = none) ∨
       (cetGate s.config e = true ∧ ∃ c, PagePasses s o .ssRest (tmpCetSavePage t e) c ∧
          f.cet = some (c + off (tmpCetSaveArea t e)))) ∧
      u = commitFrame s { tcs := t, secs := e, owner := o } f := by
  obtain ⟨⟨t, e, o⟩, f, hr, ht, hx, hp, hf, hu⟩ := edeccssaResult_ok_iff.1 (exec_next_iff.1 h)
  obtain ⟨hxs, hg, hd, hc⟩ := checkFrame_ok_iff.1 hf
  obtain ⟨hlen, hpages⟩ := checkPages_visited_iff.1 hxs
  have hds := checkDs_ok_iff.1 hd
  have hcet := checkCet_ok_iff.1 hc
  refine ⟨t, e, o, f, ready_iff.2 ⟨hr, ht, hx, hp⟩, hlen, hpages, pagePasses_iff.2 hg, hds, ?_, hu⟩
  rcases hcet with h | ⟨hgate, c, hc, hf⟩
  · exact .inl h
  · exact .inr ⟨hgate, c, pagePasses_iff.2 hc, hf⟩

end Sys2Proof.Machine
end

