-- ==== Sys2Proof/Laws/PerInstr.lean ====
section
/-! SUPPORT. Statements about every instruction as syntax, one lemma for each constructor of Instr. -/

namespace Sys2Proof.Laws.RoundTrip

/-- The instruction is well formed, and its encoding under its leaf number decodes back to it, whatever follows. -/
def Statement (i : Instr) : Prop :=
  i.wf = true ∧ ∀ rest, decode i.leaf (encode i ++ rest) = .ok (i, rest)

theorem edeccssa : Statement .edeccssa := ⟨rfl, fun _ => decode_ok_iff.2 ⟨rfl, rfl, rfl⟩⟩

end Sys2Proof.Laws.RoundTrip
end

