-- ==== Sys2Proof/Tests/Slice0.lean ====
section
/-! SUPPORT. Tests of the decoder and of the well-formedness checks, and for every statement with hypotheses a concrete
state that meets them. The states are the vectors of spec/95_test_vectors.md (set-up K0, E0), and the outcomes looked at are
the ones that file derives by hand. -/

namespace Sys2Proof.Tests

open Sys2Proof.Machine

/-! ### Well-formedness: an ill-formed term for each check -/

/-- R66: a prefixed form is refused. -/
theorem test_prefixed_form_is_ill_formed :
    EncluForm.bare { prefixes := [.lock], leaf := 9 } = false ∧
      EncluForm.wf { prefixes := [.lock], leaf := 9 } = false := by decide

/-- R65: a form with another leaf number is refused. -/
theorem test_other_leaf_is_ill_formed :
    EncluForm.selectsEdeccssa { prefixes := [], leaf := 8 } = false ∧
      EncluForm.wf { prefixes := [], leaf := 8 } = false := by decide

/-! ### Decoding -/

/-- R62: the bytes `00001111 00000001 11010111`, written bit by bit, with EAX = 9. -/
theorem test_decode_enclu_bits :
    decode 9 [0b00001111#8, 0b00000001#8, 0b11010111#8] = .ok (.edeccssa, []) := rfl

/-- spec/opcode_table.json: match 0xD7010F in 24 bits; one bit off is another word. -/
theorem test_decode_table_word :
    decodeTableWord 24 0xD7010F = some .edeccssa ∧ decodeTableWord 24 0xD6010F = none := by decide

/-! ### The states of the vectors -/

/-- Configuration K0, with the two Booleans the vectors vary. XFRM `XA` is 0x1000001 here. -/
def k0 (cetEnum inclusive : Bool) : Config :=
  { supported := true, cetEnum := cetEnum, gprsgxSize := 184
    xsaveSizes := [(0x3, 576), (0xE7, 2696), (0x600E7, 11008), (0x1000001, 4096)], xsaveSizeElse := 0
    xsaveEndInclusive := inclusive, instrLen := 3 }

/-- The SECS identifier `S0` of enclave E0. -/
def s0 : Nat := 0x80002000

/-- A good entry of type `t` for the linear page `l`. -/
def good (t : PageType) (l : Nat) : EpcmEntry :=
  { valid := true, blocked := false, pending := false, modified := false, r := true, w := true
    pt := t, enclaveAddress := l, enclaveSecs := s0 }

/-- The EPCM entry of the TCS page. -/
def tcsEntry : EpcmEntry := { good (.other 1) 0x10001000 with r := false, w := false }

/-- The page map and EPCM of the listed (linear page, physical frame number, type) triples added to a state. -/
def mapped : List (Nat × Nat × PageType) → State → State
  | [], s => s
  | (l, frame, t) :: rest, s =>
    { mapped rest s with
      pageMap := Table.set (mapped rest s).pageMap l frame
      epcm := Table.set (mapped rest s).epcm (4096 * frame) (good t l) }

/-- Enclave E0 and the start state common to all vectors, with no page mapped. -/
def e0 (c : Config) (t : Tcs) (e : Secs) : State :=
  { State.reset with
    config := c, rax := 9, pc := 0x10020000, inEnclave := true, mode64 := true, encluReady := true
    crTcsPa := 0x80001000, crActiveSecs := s0, crGprPa := 0xAAAA0000
    crXsavePage := [(0, 0xBBBB0000), (1, 0xBBBB0000), (2, 0xBBBB0000)], crCetSaveAreaPa := 0xCCCC0000
    tcss := [(0x80001000, t)], secss := [(s0, e)], epcm := [(0x80001000, tcsEntry)]
    text := [(0x10020000, 0x0F), (0x10020001, 0x01), (0x10020002, 0xD7)] }

/-- The active SECS of E0. -/
def secs (frameSize : Nat) (xfrm : BitVec 64) (shStkEn endbrEn : Bool) : Secs :=
  { baseAddr := 0x10000000, ssaFrameSize := frameSize, xfrm := xfrm, shStkEn := shStkEn, endbrEn := endbrEn }

def tcs1 : Tcs := { cssa := 1, ossa := 0x3000, ocetssa := 0xA000 }
def secs1 : Secs := secs 1 0x3 false false

/-- V1: the smallest frame. -/
def v1 : State := mapped [(0x10003000, 0x80003, .reg)] (e0 (k0 false false) tcs1 secs1)

/-- V1 with one change to the entry of page 0x10003000 (V13). -/
def v1Entry (e : EpcmEntry) : State := { v1 with epcm := Table.set v1.epcm 0x80003000 e }

def tcs7 : Tcs := { cssa := 2, ossa := 0x4000, ocetssa := 0xA000 }
def secs7 : Secs := secs 3 0x600E7 true false

/-- V7: three scattered XSAVE pages (V2), shadow stacks enabled, CET frame index 1. -/
def v7 : State :=
  mapped [(0x10007000, 0x80055, .reg), (0x10008000, 0x80012, .reg), (0x10009000, 0x80033, .reg),
    (0x1000A000, 0x80077, .ssRest)] (e0 (k0 true false) tcs7 secs7)

/-- The physical addresses of V2's XSAVE pages. -/
def pas7 (n : Nat) : Nat := [0x80055000, 0x80012000, 0x80033000].getD n 0

def tcs3 : Tcs := { cssa := 1, ossa := 0x4000, ocetssa := 0xA000 }
def secs3 : Secs := secs 3 0x3 false false

/-- V3: the frame's middle page is never checked; here with its GPR page as given. -/
def v3 (gprPage : List (Nat × Nat × PageType)) : State :=
  mapped ((0x10004000, 0x80004, .reg) :: gprPage) (e0 (k0 false false) tcs3 secs3)

/-- V15: V1 outside 64-bit mode, with DS limit `limit`. -/
def v15 (limit : Nat) : State := { v1 with mode64 := false, ds := [(0, limit)] }

/-- V17: V7 with the CET save page of type `PT_REG`. -/
def v17 : State := { v7 with epcm := Table.set v7.epcm 0x80077000 (good .reg 0x1000A000) }

/-- P2: two frames popped, with CET, in 32-bit mode. -/
def p2 : State :=
  { mapped [(0x10003000, 0x80003, .reg), (0x10004000, 0x80004, .reg), (0x1000A000, 0x8000A, .ssRest)]
      (e0 (k0 true false) { cssa := 2, ossa := 0x3000, ocetssa := 0xA000 } (secs 1 0x3 true true)) with
    mode64 := false, ds := [(0, 0xFFFFFFFF)]
    text := [(0x10020000, 0x0F), (0x10020001, 0x01), (0x10020002, 0xD7),
      (0x10020003, 0x0F), (0x10020004, 0x01), (0x10020005, 0xD7)] }

/-- P4: the second pop meets a pending page. -/
def p4 : State :=
  let s := mapped [(0x10003000, 0x80003, .reg), (0x10004000, 0x80004, .reg)]
    (e0 (k0 false false) { cssa := 2, ossa := 0x3000, ocetssa := 0 } secs1)
  { s with
    epcm := Table.set s.epcm 0x80003000 { good .reg 0x10003000 with pending := true }
    text := p2.text }

/-- Whether an outcome is a next state with the given property. -/
def next (o : Host.Outcome State Fault Refusal) (p : State → Bool) : Bool :=
  match o with
  | .next u => p u
  | _ => false

/-! ### The two tests of the instruction (V7 and V13 (b)) -/

/-- V7: the registers of the frame, the CET save area with its offset, CSSA and `pc`. -/
theorem test_v7_completes :
    next (step v7) (fun u => u.currentTcs == some { tcs7 with cssa := 1 } && u.crGprPa == 0x80033F48
      && u.crXsavePage == [(0, 0x80055000), (1, 0x80012000), (2, 0x80033000)]
      && u.crCetSaveAreaPa == 0x80077010 && u.pc == 0x10020003 && u.eax == 9) = true := by decide

/-- V13 (b): the second XSAVE page is not valid. -/
theorem test_v13_second_page_faults :
    ∃ code, step { v7 with epcm := Table.set v7.epcm 0x80012000 { good .reg 0x10008000 with valid := false } }
      = .fault (.pf 0x10008000 code) := ⟨_, rfl⟩

/-! ### Witnesses: the hypotheses of the statements are met -/

theorem ready_v1 : Ready v1 tcs1 secs1 s0 := by constructor <;> decide
theorem ready_v7 : Ready v7 tcs7 secs7 s0 := by constructor <;> decide
theorem ready_v3 (g : List (Nat × Nat × PageType)) (h : g = [] ∨ g = [(0x10006000, 0x80006, .reg)]) :
    Ready (v3 g) tcs3 secs3 s0 := by
  rcases h with rfl | rfl <;> constructor <;> decide
theorem ready_v15a : Ready (v15 0x10003FFE) tcs1 secs1 s0 := by constructor <;> decide
theorem ready_v15b : Ready (v15 0x10003FFF) tcs1 secs1 s0 := by constructor <;> decide
theorem ready_v17 : Ready v17 tcs7 secs7 s0 := by constructor <;> decide

theorem xsave_v1 : XsavePagesPass v1 tcs1 secs1 s0 fun _ => 0x80003000 := by
  intro n hn
  obtain rfl : n = 0 := by
    have : framePages v1.config secs1 = 1 := by decide
    omega
  exact pagePasses_iff.2 rfl

theorem xsave_v7 : XsavePagesPass v7 tcs7 secs7 s0 pas7 := by
  intro n hn
  have : framePages v7.config secs7 = 3 := by decide
  obtain rfl | rfl | rfl : n = 0 ∨ n = 1 ∨ n = 2 := by omega
  all_goals exact pagePasses_iff.2 rfl

theorem xsave_v17 : XsavePagesPass v17 tcs7 secs7 s0 pas7 := by
  intro n hn
  have : framePages v17.config secs7 = 3 := by decide
  obtain rfl | rfl | rfl : n = 0 ∨ n = 1 ∨ n = 2 := by omega
  all_goals exact pagePasses_iff.2 rfl

theorem xsave_v3 (g : List (Nat × Nat × PageType)) (h : g = [] ∨ g = [(0x10006000, 0x80006, .reg)]) :
    XsavePagesPass (v3 g) tcs3 secs3 s0 fun _ => 0x80004000 := by
  intro n hn
  obtain rfl : n = 0 := by
    have : framePages (v3 g).config secs3 = 1 := by rcases h with rfl | rfl <;> decide
    omega
  rcases h with rfl | rfl <;> exact pagePasses_iff.2 rfl

theorem xsave_v15a : XsavePagesPass (v15 0x10003FFE) tcs1 secs1 s0 fun _ => 0x80003000 := by
  intro n hn
  obtain rfl : n = 0 := by
    have : framePages (v15 0x10003FFE).config secs1 = 1 := by decide
    omega
  exact pagePasses_iff.2 rfl

/-- V1 completes; V15 (b) completes at the last DS limit that holds the GPR area. -/
theorem completes_v1 : ∃ u, exec .edeccssa v1 = .next u ∧ v1.currentTcs = some tcs1 ∧ v1.activeSecs = some secs1 :=
  ⟨_, rfl, rfl, rfl⟩
theorem completes_v7 : ∃ u, exec .edeccssa v7 = .next u ∧ v7.currentTcs = some tcs7 ∧ v7.activeSecs = some secs7 ∧
    v7.tcsOwner = some s0 ∧ v7.config.cetEnum = true ∧ secs7.shStkEn = true :=
  ⟨_, rfl, rfl, rfl, rfl, rfl, rfl⟩

theorem witness_DecodingAcceptsExactlyTheMaskedWordUnderLeafNine : [(0x0F : Byte), 0x01].length < 3 := by decide

theorem witness_DecodingAgreesWithEncodingAtEveryForm : Instr.wf .edeccssa = true := by decide

/-- V1. -/
theorem witness_StepRunsTheDecodedInstruction : decode v1.eax v1.fetchBytes = .ok (.edeccssa, []) := rfl

/-- V19, a prefixed form, a text of one byte and of two, and no text. -/
theorem witness_StepRefusesWhateverIsNotEdeccssa :
    (({ v1 with rax := 8 } : State).fetchBytes = [0x0F, 0x01, 0xD7] ∧ ({ v1 with rax := 8 } : State).eax ≠ 9) ∧
    ({ v1 with text := [(0x10020000, 0xF0), (0x10020001, 0x0F), (0x10020002, 0x01)] } : State).fetchBytes
      = [0xF0, 0x0F, 0x01] ∧
    ({ v1 with text := [(0x10020000, 0x0F)] } : State).fetchBytes.length = 1 ∧
    ({ v1 with text := [(0x10020000, 0x0F), (0x10020001, 0x01)] } : State).fetchBytes.length = 2 ∧
    Memory.readByte ({ v1 with text := [] } : State).text v1.pc.toNat = none := by decide

theorem launch_v1 : LaunchPremises v1 :=
  { instruction := ⟨[], by decide⟩, supported := by decide, encluReady := by decide
    tcs := fun _ => ⟨tcs1, by decide⟩, secs := fun _ => ⟨secs1, by decide⟩
    owner := fun _ => by decide, tcsValid := fun _ => ⟨tcsEntry, by decide, by decide⟩ }

/-- V20: a launch state whose premise of alignment fails. -/
def v20 : State := { v1 with tcss := [(0x80001000, { tcs1 with ossa := 0x3008 })] }

theorem launch_v20 : LaunchPremises v20 :=
  { instruction := ⟨[], by decide⟩, supported := by decide, encluReady := by decide
    tcs := fun _ => ⟨{ tcs1 with ossa := 0x3008 }, by decide⟩, secs := fun _ => ⟨secs1, by decide⟩
    owner := fun _ => by decide, tcsValid := fun _ => ⟨tcsEntry, by decide, by decide⟩ }

theorem witness_LaunchStatesRefuseOnFailedPremisesOnly :
    LaunchPremises v1 ∧ LaunchPremises v20 ∧ step v20 = .refused .premiseFrameAlignment :=
  ⟨launch_v1, launch_v20, rfl⟩

/-- V10, and V24: V10 with a TCS that would fail a premise. -/
theorem witness_OutsideAnEnclaveRaisesGp0 :
    (({ v1 with inEnclave := false } : State).encluReady = true ∧ v1.config.supported = true ∧
      ({ v20 with inEnclave := false } : State).inEnclave = false) ∧ ∃ u, exec .edeccssa v1 = .next u :=
  ⟨⟨rfl, rfl, rfl⟩, _, rfl⟩

/-- V11. -/
def v11 : State := { v1 with tcss := [(0x80001000, { tcs1 with cssa := 0 })] }

theorem witness_CssaZeroRaisesGp0 :
    v11.encluReady = true ∧ v11.config.supported = true ∧ v11.inEnclave = true ∧
      v11.currentTcs = some { tcs1 with cssa := 0 } := ⟨rfl, rfl, rfl, rfl⟩

/-- V7 (the gate holds) and V1 (it does not). -/
theorem witness_CompletesInTheStateOfTheRulesWhenEveryCheckPasses :
    (Ready v7 tcs7 secs7 s0 ∧ XsavePagesPass v7 tcs7 secs7 s0 pas7 ∧ GprAreaPasses v7 tcs7 secs7 s0 0x80033F48 ∧
      DsPasses v7 tcs7 secs7 ∧ CetPagePasses v7 tcs7 secs7 s0 0x80077000) ∧
    (Ready v1 tcs1 secs1 s0 ∧ XsavePagesPass v1 tcs1 secs1 s0 (fun _ => 0x80003000) ∧
      GprAreaPasses v1 tcs1 secs1 s0 0x80003F48 ∧ DsPasses v1 tcs1 secs1 ∧ CetPagePasses v1 tcs1 secs1 s0 0) :=
  ⟨⟨ready_v7, xsave_v7, pagePasses_iff.2 rfl, (fun h => absurd h (by decide)), fun _ => pagePasses_iff.2 rfl⟩,
    ready_v1, xsave_v1, pagePasses_iff.2 rfl, (fun h => absurd h (by decide)),
    fun h => absurd h (by decide)⟩

theorem witness_CompletionDecrementsCssa : ∃ u, exec .edeccssa v1 = .next u := ⟨_, rfl⟩

theorem witness_CompletionLoadsTheAddressOfTheGprArea :
    ∃ u, exec .edeccssa v7 = .next u ∧ v7.currentTcs = some tcs7 ∧ v7.activeSecs = some secs7 := ⟨_, rfl, rfl, rfl⟩

/-- V4 (b): the inclusive loop end at an exact page multiple; and V7, the exclusive one. -/
def v4b : State :=
  mapped [(0x10004000, 0x80004, .reg), (0x10005000, 0x80005, .reg)] (e0 (k0 false true) tcs3 (secs 2 0x1000001 false false))

theorem witness_CompletionLoadsTheXsavePagesOfTheTargetFrame :
    (∃ u, exec .edeccssa v4b = .next u ∧ v4b.currentTcs = some tcs3 ∧
      v4b.activeSecs = some (secs 2 0x1000001 false false) ∧ 4096 = xsaveFrameSize v4b.config 0x1000001 ∧
      u.xsavePage 1 = 0x80005000) ∧
    ∃ u, exec .edeccssa v7 = .next u ∧ v7.currentTcs = some tcs7 ∧ v7.activeSecs = some secs7 ∧
      11008 = xsaveFrameSize v7.config secs7.xfrm :=
  ⟨⟨_, rfl, rfl, rfl, by decide, by decide⟩, _, rfl, rfl, rfl, by decide⟩

/-- V7 (gate open), V1 (closed). -/
theorem witness_CompletionLoadsTheCetSaveAreaWhereTheGateHolds :
    (∃ u, exec .edeccssa v7 = .next u ∧ v7.currentTcs = some tcs7 ∧ v7.activeSecs = some secs7 ∧
      (v7.config.cetEnum = true ∧ (secs7.shStkEn = true ∨ secs7.endbrEn = true))) ∧
    (∃ u, exec .edeccssa v1 = .next u ∧ v1.currentTcs = some tcs1 ∧ v1.activeSecs = some secs1 ∧
      ¬ (v1.config.cetEnum = true ∧ (secs1.shStkEn = true ∨ secs1.endbrEn = true))) :=
  ⟨⟨_, rfl, rfl, rfl, by decide⟩, _, rfl, rfl, rfl, by decide⟩

/-- V6 (enumerated, not enabled), V5 (enabled, not enumerated), V7 (the gate holds). -/
theorem witness_ClosedCetGateReadsNoCetField :
    (({ v1 with config := k0 true false } : State).activeSecs = some secs1 ∧
      ¬ ((k0 true false).cetEnum = true ∧ (secs1.shStkEn = true ∨ secs1.endbrEn = true))) ∧
    ({ v1 with secss := [(s0, secs 1 0x3 true true)] } : State).config.cetEnum = false ∧
    ∃ u, v7.currentTcs = some tcs7 ∧ v7.activeSecs = some secs7 ∧ v7.tcsOwner = some s0 ∧
      (v7.config.cetEnum = true ∧ (secs7.shStkEn = true ∨ secs7.endbrEn = true)) ∧ exec .edeccssa v7 = .next u :=
  ⟨⟨rfl, by decide⟩, rfl, _, rfl, rfl, rfl, by decide, rfl⟩

/-- The last `pc` that completes in 32-bit mode, one byte lower than the first that is refused. -/
theorem witness_CompletionAdvancesPcPastTheInstruction :
    (∃ u, exec .edeccssa { v15 0x10003FFF with pc := 0xFFFFFFFC } = .next u) ∧
    exec .edeccssa { v15 0x10003FFF with pc := 0xFFFFFFFD } = .refused .pcOverflow := ⟨⟨_, rfl⟩, rfl⟩

/-- V7, one page of each kind. -/
theorem witness_EveryCheckedPageHasTheEpcmFieldsAsked :
    (∃ u, exec .edeccssa v7 = .next u ∧ v7.currentTcs = some tcs7 ∧ v7.activeSecs = some secs7) ∧
    Checked v7 tcs7 secs7 .reg 0x10009000 ∧ Checked v7 tcs7 secs7 .reg 0x10009F48 ∧
    Checked v7 tcs7 secs7 .ssRest 0x1000A000 :=
  ⟨⟨_, rfl, rfl, rfl⟩, .xsave 2 (by decide), .gpr, .cet (by decide)⟩

/-- V12 (the first page is not mapped), V13 (the first page of another type), V13 (b) (the second page, the first good). -/
theorem witness_FirstBadXsavePageFaults :
    (Ready { v1 with pageMap := [] } tcs1 secs1 s0 ∧
      ∃ r, ({ v1 with pageMap := [] } : State).translate (tmpSsa tcs1 secs1 + 4096 * 0) = .fault r) ∧
    (Ready (v1Entry (good .ssRest 0x10003000)) tcs1 secs1 s0 ∧
      (v1Entry (good .ssRest 0x10003000)).translate (tmpSsa tcs1 secs1 + 4096 * 0) = .ok 0x80003000 ∧
      ¬ UsablePage (v1Entry (good .ssRest 0x10003000)) s0 .reg (tmpSsa tcs1 secs1 + 4096 * 0) 0x80003000) ∧
    (Ready { v7 with pageMap := Table.erase v7.pageMap 0x10008000 } tcs7 secs7 s0 ∧
      1 < framePages v7.config secs7 ∧
      (∀ m, m < 1 → ∃ p, PagePasses { v7 with pageMap := Table.erase v7.pageMap 0x10008000 } s0 .reg
        (tmpSsa tcs7 secs7 + 4096 * m) p) ∧
      ∃ r, ({ v7 with pageMap := Table.erase v7.pageMap 0x10008000 } : State).translate
        (tmpSsa tcs7 secs7 + 4096 * 1) = .fault r) := by
  refine ⟨⟨by constructor <;> decide, _, rfl⟩, ⟨by constructor <;> decide, rfl, not_usablePage_iff.2 (by decide)⟩,
    by constructor <;> decide, by decide, fun m hm => ?_, _, rfl⟩
  obtain rfl : m = 0 := by omega
  exact ⟨_, pagePasses_iff.2 rfl⟩

/-- V14, second part (the GPR page is not writable), and the same frame with the GPR page not mapped. -/
def v14 : State :=
  { v3 [(0x10006000, 0x80006, .reg)] with
    epcm := Table.set (v3 [(0x10006000, 0x80006, .reg)]).epcm 0x80006000 { good .reg 0x10006000 with w := false } }

theorem xsave_v14 : XsavePagesPass v14 tcs3 secs3 s0 fun _ => 0x80004000 := by
  intro n hn
  obtain rfl : n = 0 := by
    have : framePages v14.config secs3 = 1 := by decide
    omega
  exact pagePasses_iff.2 rfl

theorem witness_BadGprAreaFaults :
    (Ready v14 tcs3 secs3 s0 ∧ XsavePagesPass v14 tcs3 secs3 s0 (fun _ => 0x80004000) ∧
      v14.translate (tmpGpr v14.config tcs3 secs3) = .ok 0x80006F48 ∧
      ¬ UsablePage v14 s0 .reg (tmpGpr v14.config tcs3 secs3) 0x80006F48) ∧
    (Ready (v3 []) tcs3 secs3 s0 ∧ XsavePagesPass (v3 []) tcs3 secs3 s0 (fun _ => 0x80004000) ∧
      ∃ r, (v3 []).translate (tmpGpr (v3 []).config tcs3 secs3) = .fault r) :=
  ⟨⟨by constructor <;> decide, xsave_v14, rfl, not_usablePage_iff.2 (by decide)⟩,
    ready_v3 [] (.inl rfl), xsave_v3 [] (.inl rfl), _, rfl⟩

/-- V15 (a), the DS limit one below the last byte; V15 (c), 64-bit mode; V15 (b), a DS that answers alike. -/
theorem witness_GprAreaOutsideDsRaisesGp0OutsideMode64 :
    (Ready (v15 0x10003FFE) tcs1 secs1 s0 ∧ XsavePagesPass (v15 0x10003FFE) tcs1 secs1 s0 (fun _ => 0x80003000) ∧
      GprAreaPasses (v15 0x10003FFE) tcs1 secs1 s0 0x80003F48 ∧ (v15 0x10003FFE).mode64 = false ∧
      (v15 0x10003FFE).inDs (tmpGpr (v15 0x10003FFE).config tcs1 secs1 + 184 - 1) = false) ∧
    v1.mode64 = true ∧
    (v15 0x10003FFF).inDs (tmpGpr v1.config tcs1 secs1 + 184 - 1)
      = ({ v15 0x10003FFF with ds := [(0x10003FFF, 0x10003FFF)] } : State).inDs (tmpGpr v1.config tcs1 secs1 + 184 - 1) :=
  ⟨⟨ready_v15a, xsave_v15a, pagePasses_iff.2 rfl, rfl, by decide⟩, rfl, by decide⟩

/-- V17 (type `PT_REG`), and V7 with the CET save page not mapped. -/
def v17b : State := { v7 with pageMap := Table.erase v7.pageMap 0x1000A000 }

theorem xsave_v17b : XsavePagesPass v17b tcs7 secs7 s0 pas7 := by
  intro n hn
  have : framePages v17b.config secs7 = 3 := by decide
  obtain rfl | rfl | rfl : n = 0 ∨ n = 1 ∨ n = 2 := by omega
  all_goals exact pagePasses_iff.2 rfl

theorem witness_BadCetSavePageFaults :
    (Ready v17 tcs7 secs7 s0 ∧ XsavePagesPass v17 tcs7 secs7 s0 pas7 ∧ GprAreaPasses v17 tcs7 secs7 s0 0x80033F48 ∧
      DsPasses v17 tcs7 secs7 ∧ cetGate v17.config secs7 = true ∧
      v17.translate (tmpCetSavePage tcs7 secs7) = .ok 0x80077000 ∧
      ¬ UsablePage v17 s0 .ssRest (tmpCetSavePage tcs7 secs7) 0x80077000) ∧
    (Ready v17b tcs7 secs7 s0 ∧ XsavePagesPass v17b tcs7 secs7 s0 pas7 ∧ GprAreaPasses v17b tcs7 secs7 s0 0x80033F48 ∧
      DsPasses v17b tcs7 secs7 ∧ cetGate v17b.config secs7 = true ∧
      ∃ r, v17b.translate (tmpCetSavePage tcs7 secs7) = .fault r) :=
  ⟨⟨ready_v17, xsave_v17, pagePasses_iff.2 rfl, (fun h => absurd h (by decide)), rfl, rfl, not_usablePage_iff.2 (by decide)⟩,
    by constructor <;> decide, xsave_v17b, pagePasses_iff.2 rfl, (fun h => absurd h (by decide)), rfl, _, rfl⟩

/-- V10, V11, V15 (a): each of the three causes occurs. -/
theorem witness_Gp0HasExactlyThreeCauses :
    exec .edeccssa { v1 with inEnclave := false } = .fault .gp0 ∧ exec .edeccssa v11 = .fault .gp0 ∧
    exec .edeccssa (v15 0x10003FFE) = .fault .gp0 := ⟨rfl, rfl, rfl⟩

/-- V13 (an XSAVE page), V14 (the GPR area, at `TMP_GPR`), V17 (the CET save page, at its page). -/
theorem witness_PageFaultReportsTheCheckedAddress :
    (∃ code, exec .edeccssa (v1Entry (good .ssRest 0x10003000)) = .fault (.pf 0x10003000 code)) ∧
    (∃ code, exec .edeccssa v14 = .fault (.pf 0x10006F48 code)) ∧
    ∃ code, exec .edeccssa v17 = .fault (.pf 0x1000A000 code) := ⟨⟨_, rfl⟩, ⟨_, rfl⟩, _, rfl⟩

/-- V12, with a fault of another kind listed for the address. -/
theorem witness_TranslationFaultIsDeliveredUnchanged :
    exec .edeccssa { v1 with pageMap := [], pageFaults := [(0x10003000, ⟨.other 12, some 5, none⟩)] }
      = .fault (.translation ⟨.other 12, some 5, none⟩) := rfl

/-- L1 not met, V23, L2 not met, V20, V21, V22. -/
theorem witness_RefusesExactlyWhereTheRulesGiveNoMeaning :
    exec .edeccssa { v1 with encluReady := false } = .refused .encluNotReady ∧
    exec .edeccssa { v1 with config := { v1.config with supported := false } } = .refused .unsupported ∧
    exec .edeccssa { v1 with tcss := [] } = .refused .noCurrentTcs ∧
    exec .edeccssa { v1 with epcm := Table.set v1.epcm 0x80001000 { tcsEntry with valid := false } }
      = .refused .tcsNotValid ∧
    exec .edeccssa v20 = .refused .premiseFrameAlignment ∧
    exec .edeccssa { v1 with secss := [(s0, { secs1 with ssaFrameSize := 0 })] } = .refused .premiseFrameSize ∧
    exec .edeccssa { v1 with
      mode64 := false, tcss := [(0x80001000, { tcs1 with ossa := 0x1000 })]
      secss := [(s0, { secs1 with baseAddr := 0xFFFFF000 })] } = .refused .addressOverflow :=
  ⟨rfl, rfl, rfl, rfl, rfl, rfl, rfl⟩

theorem witness_CompletionChangesOnlyTheWriteSet :
    ∃ u, exec .edeccssa v7 = .next u ∧ v7.activeSecs = some secs7 := ⟨_, rfl, rfl⟩

/-- V1 and V1 with its TCS moved, other registers, other memory, other values in the registers EDECCSSA loads. -/
def v1Moved : State :=
  { v1 with
    rax := 77, flags := 2, crTcsPa := 0x80000000, crGprPa := 1, mem := [(0x10003000, 0xFF)]
    tcss := [(0x80000000, tcs1)], epcm := Table.set v1.epcm 0x80000000 tcsEntry }

theorem witness_OutcomeIsAFunctionOfTheReadSet : SameReads v1 v1Moved := by
  have hchecked : ∀ t e ty a, v1.currentTcs = some t → v1.activeSecs = some e → Checked v1 t e ty a →
      (ty = .reg ∧ (a = 0x10003000 ∨ a = 0x10003F48)) := by
    intro t e ty a ht he h
    obtain rfl : tcs1 = t := Option.some.inj ht
    obtain rfl : secs1 = e := Option.some.inj he
    rcases h with ⟨n, hn⟩ | _ | hgate
    · obtain rfl : n = 0 := by
        have : framePages v1.config secs1 = 1 := by decide
        omega
      exact ⟨rfl, .inl rfl⟩
    · exact ⟨rfl, .inr rfl⟩
    · exact absurd hgate (by decide)
  refine ⟨by decide, by decide, by decide, by decide, by decide, by decide, by decide, by decide, by decide, by decide,
    fun t e ty a ht he h => ?_, fun t e ty a p ht he h hp => ?_, fun t e ht he h => absurd h (by decide)⟩
  · rcases (hchecked t e ty a ht he h).2 with rfl | rfl <;> rfl
  · rcases (hchecked t e ty a ht he h).2 with rfl | rfl
    · obtain rfl : 0x80003000 = p := TranslateResult.ok.inj hp
      rfl
    · obtain rfl : 0x80003F48 = p := TranslateResult.ok.inj hp
      rfl

theorem witness_ExclusiveLoopVisitsThePagesOfTheXsaveArea :
    (k0 false false).xsaveEndInclusive = false ∧ (tcs7.ossa + secs7.baseAddr) % 4096 = 0 := by decide

theorem witness_GprAreaEndsTheLastPageOfTheFrame : Ready v7 tcs7 secs7 s0 := ready_v7

/-- V7 (the gate holds, 64-bit mode) and V15 (32-bit mode). -/
theorem witness_AddressesAgreeWithBitVectorArithmetic :
    (Ready v7 tcs7 secs7 s0 ∧ 2 < framePages v7.config secs7 ∧ cetGate v7.config secs7 = true) ∧
    Ready (v15 0x10003FFF) tcs1 secs1 s0 := ⟨⟨ready_v7, by decide, by decide⟩, ready_v15b⟩

/-- The highest address of each width. -/
theorem witness_PageAndOffsetAreTheMaskedBits :
    0xFFFFFFFF < 2 ^ (if false then 64 else 32) ∧ 0xFFFFFFFFFFFFFFFF < 2 ^ (if true then 64 else 32) := by decide

theorem witness_EveryStepKeepsTheCanonicalForm : v7.wf = true ∧ ∃ u, step v7 = .next u := ⟨by decide, _, rfl⟩

theorem witness_EveryStepStaysInTheEnclaveOnItsThread : ∃ u, step v1 = .next u := ⟨_, rfl⟩

/-- P2: two completing steps. -/
theorem witness_RunPopsOneFrameAStep :
    ∃ u, runSteps 2 p2 = .final u ∧ p2.currentTcs = some { cssa := 2, ossa := 0x3000, ocetssa := 0xA000 } := ⟨_, rfl, rfl⟩

/-- P3: V1 with a second ENCLU in the text. -/
theorem witness_RunEndsInGp0OnceTheFramesAreUsedUp :
    ∃ u, ({ v1 with text := p2.text } : State).encluReady = true ∧ v1.config.supported = true ∧ v1.inEnclave = true ∧
      ({ v1 with text := p2.text } : State).currentTcs = some tcs1 ∧
      runSteps tcs1.cssa { v1 with text := p2.text } = .final u ∧
      decode u.eax u.fetchBytes = .ok (.edeccssa, []) := ⟨_, rfl, rfl, rfl, rfl, rfl, rfl⟩

/-- P4: the first pop is kept, the second ends the run. -/
theorem witness_FaultLeavesTheStateBeforeTheStep :
    ∃ u code, runSteps 2 p4 = .faulted u (.pf 0x10003000 code) ∧ u.crGprPa = 0x80004F48 ∧ u.pc = 0x10020003 :=
  ⟨_, _, rfl, rfl, rfl⟩

/-- V3 with the first address of its GPR page unmapped and the GPR area's own address mapped: R41 (b) allows it. -/
def v3Inside : State := { v3 [] with addrMap := [(0x10006F48, 0x80006)], epcm := (v3 [(0x10006000, 0x80006, .reg)]).epcm }

theorem witness_TranslateIsPageGranularAndKeptByCompletion :
    (∃ r, v3Inside.translate (page 0x10006F48) = .fault r) ∧ v3Inside.translate 0x10006F48 = .ok 0x80006F48 ∧
    v3Inside.translate (page 0x10004008) = .ok 0x80004000 ∧
    ∃ u, exec .edeccssa v3Inside = .next u ∧ u.crGprPa = 0x80006F48 := ⟨⟨_, rfl⟩, rfl, rfl, _, rfl, rfl⟩

theorem witness_EveryPageGranularOracleIsHeld :
    (∀ a p, v3Inside.translate (page a) = .ok p → p % 4096 = 0 ∧ v3Inside.translate a = .ok (p + off a)) ∧
    (∀ a p, v3Inside.translate a = .ok p → off p = off a) ∧
    ∃ r, v3Inside.translate (page 0x10006F48) = .fault r :=
  ⟨fun _ _ h => ⟨(translate_of_page h).2, (translate_of_page h).1⟩, fun _ _ h => translate_off h, _, rfl⟩

end Sys2Proof.Tests
end

section
/-! The entry checks of EDECCSSA (R71, R72), as the outcome of a whole execution. -/

namespace Sys2Proof.Machine

/-- Once control reaches the leaf, a fault of the entry checks is the outcome: nothing after them is looked at. -/
theorem exec_fault_of_entryChecks {s : State} {f : Fault} (hready : s.encluReady = true)
    (hsupported : s.config.supported = true) (hentry : entryChecks s = .error (.raise f)) :
    exec .edeccssa s = .fault f :=
  exec_fault_iff.2 (edeccssaResult_error_iff.2
    (.inr ⟨reachLeaf_ok_iff.2 ⟨hready, hsupported⟩, .inl hentry⟩))

/-- Settles O8: outside an enclave the first entry check raises `#GP(0)`; a completing step started from a `Ready`
state, which is inside one. -/
theorem outsideAnEnclaveRaisesGp0 : Obligations.OutsideAnEnclaveRaisesGp0 := by
  refine ⟨fun s hready hsupported houtside => ?_, fun s u hnext => ?_, rfl⟩
  · exact exec_fault_of_entryChecks hready hsupported (entryChecks_error_iff.2 (.inl ⟨houtside, rfl⟩))
  · obtain ⟨_, _, _, _, hready, -⟩ := exec_next_cases hnext
    exact hready.inEnclave

end Sys2Proof.Machine
end

section
/-! What the commit of EDECCSSA keeps: the canonical form of the state (log entry 8, R12, R93). -/

namespace Sys2Proof.Machine

@[simp] theorem State.width_commitFrame (s : State) (x : Context) (f : FrameAddrs) :
    (commitFrame s x f).width = s.width := rfl

theorem State.width_le (s : State) : s.width ≤ 64 := by
  unfold State.width
  split <;> omega

/-- R93: where `pc + INSTR_LEN` fits the width, the new `pc` is that sum, without wrapping. -/
theorem toNat_pc_commitFrame {s : State} (hfits : s.pc.toNat + s.config.instrLen < 2 ^ s.width) (x : Context)
    (f : FrameAddrs) : (commitFrame s x f).pc.toNat = s.pc.toNat + s.config.instrLen := by
  have hwidth : 2 ^ s.width ≤ 2 ^ 64 := Nat.pow_le_pow_right (by omega) s.width_le
  rw [commitFrame_pc, BitVec.toNat_add, BitVec.toNat_ofNat, Nat.add_mod_mod]
  exact Nat.mod_eq_of_lt (hfits.trans_le hwidth)

/-- The commit keeps the canonical form: it writes the TCS table and the XSAVE registers by operations that keep theirs,
and moves `pc` within the width. -/
theorem wf_commitFrame {s : State} (hwf : s.wf = true) (hfits : s.pc.toNat + s.config.instrLen < 2 ^ s.width)
    (x : Context) (f : FrameAddrs) : (commitFrame s x f).wf = true := by
  have hpc := toNat_pc_commitFrame hfits x f
  simp only [State.wf, Bool.and_eq_true, decide_eq_true_eq, and_assoc] at hwf ⊢
  obtain ⟨hregs, hxsave, htcss, hsecss, hepcm, hepcmKeys, hpages, hpageKeys, haddrs, haddrKeys, hfaults, hmem, htext, -⟩ :=
    hwf
  exact ⟨hregs, wfD_writeXsavePages _ hxsave 0, Table.wf_set htcss _ _, hsecss, hepcm, hepcmKeys, hpages, hpageKeys,
    haddrs, haddrKeys, hfaults, hmem, htext, hpc ▸ hfits⟩

/-- Settles O36: a completing step is the commit of a `Ready` state, whose `pc` bound the premises give. -/
theorem everyStepKeepsTheCanonicalForm : Obligations.EveryStepKeepsTheCanonicalForm := by
  intro s u hwf hstep
  obtain ⟨-, hnext⟩ := step_next_iff.1 hstep
  obtain ⟨_, _, _, _, hready, -, -, -, -, -, rfl⟩ := exec_next_cases hnext
  exact wf_commitFrame hwf hready.pcFits _ _

end Sys2Proof.Machine
end

section
/-! What a completing EDECCSSA checked (R25), what it leaves unchanged (R34), and where it stays (R14 to R16, R20, R30). -/

namespace Sys2Proof.Machine

/-- Where EDECCSSA completes, the state was ready and the check of every checked page passed (R76 to R87). -/
theorem exec_next_checked {s u : State} {t : Tcs} {e : Secs} (hnext : exec .edeccssa s = .next u)
    (ht : s.currentTcs = some t) (he : s.activeSecs = some e) :
    ∃ o, Ready s t e o ∧ ∀ ty a, Checked s t e ty a → ∃ p, PagePasses s o ty a p := by
  obtain ⟨t', e', o, f, hready, -, hpages, hgpr, -, hcet, -⟩ := exec_next_cases hnext
  obtain rfl : t' = t := Option.some.inj (hready.tcs.symm.trans ht)
  obtain rfl : e' = e := Option.some.inj (hready.secs.symm.trans he)
  refine ⟨o, hready, fun ty a hchecked => ?_⟩
  cases hchecked with
  | xsave n hn => exact ⟨_, hpages n hn⟩
  | gpr => exact ⟨_, hgpr⟩
  | cet hgate =>
    rcases hcet with ⟨hclosed, -⟩ | ⟨-, c, hc, -⟩
    · exact absurd hgate (by simp [hclosed])
    · exact ⟨c, hc⟩

/-- The owner every checked page must carry stands in the EPCM entry of the current TCS (R16, R43). -/
theorem tcsOwner_some_iff {s : State} {o : Nat} :
    s.tcsOwner = some o ↔ ∃ entry, s.epcmAt s.crTcsPa = some entry ∧ entry.enclaveSecs = o := Option.map_eq_some_iff

/-- Settles O18: every checked page passed its check, which asks for each field of R25, and the commit writes no EPCM
entry. -/
theorem everyCheckedPageHasTheEpcmFieldsAsked : Obligations.EveryCheckedPageHasTheEpcmFieldsAsked := by
  intro s u t e hnext ht he
  refine ⟨?_, fun ty a hchecked => ?_⟩
  · obtain ⟨_, _, _, _, -, -, -, -, -, -, rfl⟩ := exec_next_cases hnext
    rfl
  · obtain ⟨o, hready, hpasses⟩ := exec_next_checked hnext ht he
    obtain ⟨tcsEntry, htcsEntry, rfl⟩ := tcsOwner_some_iff.1 hready.owner
    obtain ⟨p, hresolves, entry, hentry, hvalid, hblocked, hpending, hmodified, haddress, hpt, hsecs, hr, hw⟩ :=
      hpasses ty a hchecked
    exact ⟨p, entry, tcsEntry, hresolves, hentry, htcsEntry, hvalid, hblocked, hpending, hmodified, hr, hw, hpt, haddress,
      hsecs⟩

/-- Settles O27: the completed state is the commit, field by field; the four components it writes change only where R34
allows. -/
theorem completionChangesOnlyTheWriteSet : Obligations.CompletionChangesOnlyTheWriteSet := by
  intro s u e hnext he
  obtain ⟨t, e', o, f, hready, hlength, -, -, -, hcet, rfl⟩ := exec_next_cases hnext
  obtain rfl : e' = e := Option.some.inj (hready.secs.symm.trans he)
  refine ⟨rfl, rfl, rfl, rfl, rfl, rfl, rfl, rfl, rfl, rfl, rfl, rfl, rfl, rfl, rfl, rfl, fun pa hpa => ?otherTcs,
    fun t' ht' => ?currentTcs, fun n hn => ?unvisited, fun hclosed => ?closedGate, fun _ => rfl, fun _ => rfl⟩
  case otherTcs => exact Table.get_set_other _ _ _ hpa
  case currentTcs =>
    obtain rfl : t = t' := Option.some.inj (hready.tcs.symm.trans ht')
    exact ⟨_, currentTcs_commitFrame .., rfl, rfl⟩
  case unvisited => rw [xsavePage_commitFrame, if_neg (by omega)]
  case closedGate =>
    rcases hcet with ⟨-, hnone⟩ | ⟨hopen, -⟩
    · rw [commitFrame_crCetSaveAreaPa, hnone, Option.getD_none]
    · exact absurd hclosed (by simp [hopen])

/-- Settles O38: EAX selected the step, a `Ready` state is inside an enclave, and the commit touches none of these
components. -/
theorem everyStepStaysInTheEnclaveOnItsThread : Obligations.EveryStepStaysInTheEnclaveOnItsThread := by
  intro s u hstep
  obtain ⟨⟨_, hdecode⟩, hnext⟩ := step_next_iff.1 hstep
  obtain ⟨heax, -, -⟩ := decode_ok_iff.1 hdecode
  obtain ⟨_, _, _, _, hready, -, -, -, -, -, rfl⟩ := exec_next_cases hnext
  exact ⟨hready.inEnclave, hready.inEnclave, rfl, rfl, rfl, rfl, rfl, rfl, heax⟩

end Sys2Proof.Machine
end

section
/-! What EDECCSSA reads (R35): two states that agree on the read set pass or stop at the same check with the same answer. -/

namespace Sys2Proof.Machine

/-- Everything of R99 before the commit: what the checks collect, or why the instruction ends before. -/
def checkedFrame (s : State) : Except Stop (Context × FrameAddrs) := do
  reachLeaf s
  let t ← entryChecks s
  let x ← enclaveContext s t
  checkPremises s x
  let f ← checkFrame s x
  .ok (x, f)

/-- The operation is its checks, then the commit of what they collected. -/
theorem edeccssaResult_eq_checkedFrame_bind (s : State) :
    edeccssaResult s = checkedFrame s >>= fun c => .ok (commitFrame s c.1 c.2) := by
  simp only [edeccssaResult, checkedFrame, bind_assoc]
  rfl

theorem exec_next_iff_checkedFrame {s u : State} :
    exec .edeccssa s = .next u ↔ ∃ x f, checkedFrame s = .ok (x, f) ∧ u = commitFrame s x f := by
  rw [exec_next_iff, edeccssaResult_eq_checkedFrame_bind, bind_ok_iff]
  simp [eq_comm]

theorem exec_fault_iff_checkedFrame {s : State} {f : Fault} :
    exec .edeccssa s = .fault f ↔ checkedFrame s = .error (.raise f) := by
  rw [exec_fault_iff, edeccssaResult_eq_checkedFrame_bind, bind_error_iff]
  simp

theorem exec_refused_iff_checkedFrame {s : State} {r : Refusal} :
    exec .edeccssa s = .refused r ↔ checkedFrame s = .error (.refuse r) := by
  rw [exec_refused_iff, edeccssaResult_eq_checkedFrame_bind, bind_error_iff]
  simp

/-! ### The checks under `SameReads` -/

/-- Two sequences with the same first part are equal where they go on alike from what that part answers. -/
theorem bind_congr_of_ok {ε α β : Type} {x : Except ε α} {f g : α → Except ε β} (h : ∀ a, x = .ok a → f a = g a) :
    (x >>= f) = (x >>= g) := by
  cases x with
  | error e => rfl
  | ok a => exact h a rfl

/-- The loop of page checks answers alike in two states that answer alike at each of its pages. -/
theorem checkPages_congr {s s' : State} {o : Nat} {ty : PageType} {as : List Nat}
    (h : ∀ a ∈ as, s'.checkPage o ty a = s.checkPage o ty a) : s'.checkPages o ty as = s.checkPages o ty as := by
  induction as with
  | nil => rfl
  | cons a as ih =>
    rw [State.checkPages, State.checkPages, h a List.mem_cons_self, ih fun b hb => h b (List.mem_cons_of_mem a hb)]

namespace SameReads

variable {s s' : State} {x : Context}

theorem width_eq (h : SameReads s s') : s'.width = s.width := by
  rw [State.width, State.width, h.mode64]

theorem reachLeaf_eq (h : SameReads s s') : reachLeaf s' = reachLeaf s := by
  rw [reachLeaf, reachLeaf, h.encluReady, h.config]

theorem entryChecks_eq (h : SameReads s s') : entryChecks s' = entryChecks s := by
  rw [entryChecks, entryChecks, h.inEnclave, h.tcs]

theorem enclaveContext_eq (h : SameReads s s') (t : Tcs) : enclaveContext s' t = enclaveContext s t := by
  rw [enclaveContext, enclaveContext, h.secs, h.owner, h.tcsValid]

theorem checkPremises_eq (h : SameReads s s') (x : Context) : checkPremises s' x = checkPremises s x := by
  rw [checkPremises, checkPremises, failedPremise, failedPremise, h.config, h.width_eq, h.pc]

/-- A checked address is resolved alike, and the EPCM entry it reaches, or the fault drawn for it, is the same. -/
theorem checkPage_eq {t : Tcs} {e : Secs} {ty : PageType} {a : Nat} (h : SameReads s s') (ht : s.currentTcs = some t)
    (he : s.activeSecs = some e) (hchecked : Checked s t e ty a) (o : Nat) :
    s'.checkPage o ty a = s.checkPage o ty a := by
  rw [State.checkPage, State.checkPage, h.translate t e ty a ht he hchecked]
  cases htr : s.translate a with
  | fault r => rfl
  | ok p =>
    have hok : s'.pageOk o ty a p = s.pageOk o ty a p := by
      rw [State.pageOk, State.pageOk, h.entries t e ty a p ht he hchecked htr]
    have hcode : s'.pfErrorCode a = s.pfErrorCode a := by rw [State.pfErrorCode, State.pfErrorCode, h.freeDraws]
    simp only [hok, hcode]

theorem checkDs_eq (h : SameReads s s') (ht : s.currentTcs = some x.tcs) (he : s.activeSecs = some x.secs) :
    checkDs s' x = checkDs s x := by
  rw [checkDs, checkDs, h.config, h.mode64]
  cases hmode : s.mode64 with
  | true => rfl
  | false => rw [h.ds _ _ ht he hmode]

theorem checkCet_eq (h : SameReads s s') (ht : s.currentTcs = some x.tcs) (he : s.activeSecs = some x.secs) :
    checkCet s' x = checkCet s x := by
  rw [checkCet, checkCet, h.config]
  cases hgate : cetGate s.config x.secs with
  | false => rfl
  | true => rw [h.checkPage_eq ht he (.cet hgate)]

theorem checkFrame_eq (h : SameReads s s') (ht : s.currentTcs = some x.tcs) (he : s.activeSecs = some x.secs) :
    checkFrame s' x = checkFrame s x := by
  have hpages : s'.checkPages x.owner .reg (visitedPages s.config x.tcs x.secs)
      = s.checkPages x.owner .reg (visitedPages s.config x.tcs x.secs) := by
    refine checkPages_congr fun a ha => ?_
    obtain ⟨n, hn, rfl⟩ := mem_visitedPages.1 ha
    exact h.checkPage_eq ht he (.xsave n hn) _
  rw [checkFrame, checkFrame, h.config, hpages, h.checkPage_eq ht he .gpr, h.checkDs_eq ht he, h.checkCet_eq ht he]

/-- The idea of R35: the read set determines everything before the commit. -/
theorem checkedFrame_eq (h : SameReads s s') : checkedFrame s' = checkedFrame s := by
  rw [checkedFrame, checkedFrame, h.reachLeaf_eq, h.entryChecks_eq]
  refine bind_congr_of_ok fun _ _ => bind_congr_of_ok fun t hentry => ?_
  obtain ⟨-, ht, -⟩ := entryChecks_ok_iff.1 hentry
  rw [h.enclaveContext_eq]
  refine bind_congr_of_ok fun x hcontext => ?_
  obtain ⟨rfl, he, -⟩ := enclaveContext_ok_iff.1 hcontext
  rw [h.checkPremises_eq, h.checkFrame_eq ht he]

end SameReads

/-- The checks before the commit pass exactly where the state is ready and the frame's checks pass. -/
theorem checkedFrame_ok_iff {s : State} {x : Context} {f : FrameAddrs} :
    checkedFrame s = .ok (x, f) ↔ Ready s x.tcs x.secs x.owner ∧ checkFrame s x = .ok f := by
  simp only [checkedFrame, bind_ok_iff, Except.ok.injEq, Prod.mk.injEq, ready_iff]
  constructor
  · rintro ⟨_, hleaf, t, hentry, x, hcontext, _, hpremises, f, hframe, rfl, rfl⟩
    obtain ⟨rfl, -⟩ := enclaveContext_ok_iff.1 hcontext
    exact ⟨⟨hleaf, hentry, hcontext, checkPremises_ok_iff.1 hpremises⟩, hframe⟩
  · rintro ⟨⟨hleaf, hentry, hcontext, hpremises⟩, hframe⟩
    exact ⟨(), hleaf, x.tcs, hentry, x, hcontext, (), checkPremises_ok_iff.2 hpremises, f, hframe, rfl, rfl⟩

/-- The frame's checks collect one address for each visited page (R78). -/
theorem xsave_length_of_checkFrame {s : State} {x : Context} {f : FrameAddrs} (h : checkFrame s x = .ok f) :
    f.xsave.length = framePages s.config x.secs :=
  (checkPages_visited_iff.1 (checkFrame_ok_iff.1 h).1).1

/-- Where the CET gate holds, the frame's checks collect the address of the CET save area (R92). -/
theorem cet_some_of_checkFrame {s : State} {x : Context} {f : FrameAddrs} (h : checkFrame s x = .ok f)
    (hgate : cetGate s.config x.secs = true) : ∃ a, f.cet = some a := by
  obtain ⟨-, -, -, hcet⟩ := checkFrame_ok_iff.1 h
  rcases checkCet_ok_iff.1 hcet with ⟨hclosed, -⟩ | ⟨-, c, -, hsome⟩
  · exact absurd hgate (by simp [hclosed])
  · exact ⟨_, hsome⟩

/-- Settles O31: the read set determines the checks' answer, and with it a fault, a refusal, or what is committed. -/
theorem outcomeIsAFunctionOfTheReadSet : Obligations.OutcomeIsAFunctionOfTheReadSet := by
  intro s s' h
  refine ⟨fun f => ?fault, fun r => ?refusal, fun u hnext => ?completion⟩
  case fault => rw [exec_fault_iff_checkedFrame, exec_fault_iff_checkedFrame, h.checkedFrame_eq]
  case refusal => rw [exec_refused_iff_checkedFrame, exec_refused_iff_checkedFrame, h.checkedFrame_eq]
  case completion =>
    obtain ⟨x, f, hchecked, rfl⟩ := exec_next_iff_checkedFrame.1 hnext
    obtain ⟨hready, hframe⟩ := checkedFrame_ok_iff.1 hchecked
    have hlength := xsave_length_of_checkFrame hframe
    refine ⟨_, exec_next_iff_checkedFrame.2 ⟨x, f, h.checkedFrame_eq.trans hchecked, rfl⟩, ?currentTcs, rfl, ?pc,
      fun e he => ?_⟩
    case currentTcs => rw [currentTcs_commitFrame, currentTcs_commitFrame]
    case pc => rw [commitFrame_pc, commitFrame_pc, h.pc, h.config]
    obtain rfl : x.secs = e := Option.some.inj (hready.secs.symm.trans he)
    refine ⟨fun n hn => ?_, fun hgate => ?_⟩
    · rw [xsavePage_commitFrame, xsavePage_commitFrame, if_pos (by omega), if_pos (by omega)]
    · obtain ⟨a, ha⟩ := cet_some_of_checkFrame hframe hgate
      rw [commitFrame_crCetSaveAreaPa, commitFrame_crCetSaveAreaPa, ha, Option.getD_some, Option.getD_some]

end Sys2Proof.Machine
end

section
/-! Components that EDECCSSA neither reads nor writes: the flags (R13) and the general registers (R10, R11). -/

namespace Sys2Proof.Machine

theorem exec_edeccssa (s : State) : exec .edeccssa s = finish (edeccssaResult s) := rfl

/-- A change of the state outside the read set, which the commit carries over, is carried over by the instruction. -/
theorem exec_eq_mapNext {s : State} {g : State → State} (hreads : SameReads s (g s))
    (hcommit : ∀ x f, commitFrame (g s) x f = g (commitFrame s x f)) :
    exec .edeccssa (g s) = mapNext g (exec .edeccssa s) := by
  rw [exec_edeccssa, exec_edeccssa, edeccssaResult_eq_checkedFrame_bind, edeccssaResult_eq_checkedFrame_bind,
    hreads.checkedFrame_eq]
  rcases checkedFrame s with (_ | _) | ⟨x, f⟩
  · rfl
  · rfl
  · exact congrArg Host.Outcome.next (hcommit x f)

/-- Registers and flags are outside the read set of R35. -/
theorem sameReads_registers (s : State) (v : BitVec 64) (rs : List (Nat × Nat)) (fl : Nat) :
    SameReads s { s with rax := v, otherRegs := rs, flags := fl } := by
  constructor <;> intros <;> rfl

theorem exec_withFlags (s : State) (v : Nat) :
    exec .edeccssa { s with flags := v } = mapNext (fun u => { u with flags := v }) (exec .edeccssa s) :=
  exec_eq_mapNext (g := fun u => { u with flags := v }) (sameReads_registers s s.rax s.otherRegs v) fun _ _ => rfl

theorem exec_withRegs (s : State) (v : BitVec 64) (rs : List (Nat × Nat)) :
    exec .edeccssa { s with rax := v, otherRegs := rs }
      = mapNext (fun u => { u with rax := v, otherRegs := rs }) (exec .edeccssa s) :=
  exec_eq_mapNext (g := fun u => { u with rax := v, otherRegs := rs }) (sameReads_registers s v rs s.flags)
    fun _ _ => rfl

/-- Settles O28: the commit keeps the flags, which are outside the read set. -/
theorem flagsAreNeitherReadNorWritten : Obligations.FlagsAreNeitherReadNorWritten := by
  refine ⟨fun s u hnext => ?_, exec_withFlags⟩
  obtain ⟨x, f, -, rfl⟩ := exec_next_iff_checkedFrame.1 hnext
  exact commitFrame_flags s x f

/-- R64: with the upper half of RAX replaced, EAX is the same. -/
theorem eax_append_eax (s : State) (hi : BitVec 32) : ({ s with rax := hi ++ s.eax } : State).eax = s.eax :=
  BitVec.setWidth_append_eq_right

/-- The selection reads only EAX: with another upper half of RAX the same bytes decode alike. -/
theorem step_withRaxHigh (s : State) (hi : BitVec 32) :
    step { s with rax := hi ++ s.eax } = mapNext (fun u => { u with rax := hi ++ s.eax }) (step s) := by
  have hfetch : ({ s with rax := hi ++ s.eax } : State).fetchBytes = s.fetchBytes := rfl
  rw [step, step, eax_append_eax, hfetch]
  cases decode s.eax s.fetchBytes with
  | error e => rfl
  | ok decoded =>
    obtain ⟨⟨⟩, _⟩ := decoded
    exact exec_eq_mapNext (g := fun u => { u with rax := hi ++ s.eax })
      (sameReads_registers s _ s.otherRegs s.flags) fun _ _ => rfl

/-- Settles O29: the commit keeps the registers, which are outside the read set, and decoding reads only EAX. -/
theorem generalRegistersAreNeitherReadNorWritten : Obligations.GeneralRegistersAreNeitherReadNorWritten := by
  refine ⟨fun s u hnext => ?_, exec_withRegs, step_withRaxHigh⟩
  obtain ⟨x, f, -, rfl⟩ := exec_next_iff_checkedFrame.1 hnext
  exact ⟨commitFrame_rax s x f, commitFrame_otherRegs s x f⟩

end Sys2Proof.Machine
end

section
/-! Pages as masked bits (R44): dropping the low 12 bits of an address gives its page, keeping them gives its offset. -/

namespace Sys2Proof.Machine

/-- Masking off the low 12 bits is shifting them out and back in as zeros, at every width. -/
theorem and_not_pageMask_eq_shift {w : Nat} (x : BitVec w) : x &&& ~~~ 0xFFF#w = x >>> 12 <<< 12 := by
  refine BitVec.eq_of_getLsbD_eq fun i hi => ?_
  have hmask : Nat.testBit 0xFFF i = decide (i < 12) := Nat.testBit_two_pow_sub_one 12 i
  rw [BitVec.getLsbD_and, BitVec.getLsbD_not, BitVec.getLsbD_ofNat, BitVec.getLsbD_shiftLeft, BitVec.getLsbD_ushiftRight,
    hmask]
  by_cases hlow : i < 12
  · simp [hi, hlow]
  · simp [hi, hlow, Nat.add_sub_cancel' (Nat.le_of_not_lt hlow)]

/-- R44: `a & ~0xFFF` is the page of `a`. -/
theorem toNat_and_not_pageMask {w : Nat} (x : BitVec w) : (x &&& ~~~ 0xFFF#w).toNat = page x.toNat := by
  rw [and_not_pageMask_eq_shift, BitVec.toNat_shiftLeft, BitVec.toNat_ushiftRight, Nat.shiftRight_eq_div_pow,
    Nat.shiftLeft_eq]
  exact Nat.mod_eq_of_lt ((page_le x.toNat).trans_lt x.isLt)

/-- R44: `a[11:0]` is the offset of `a`. -/
theorem toNat_extractLsb_eq_off {w : Nat} (x : BitVec w) : (x.extractLsb 11 0).toNat = off x.toNat :=
  BitVec.extractLsb_toNat 11 0 x

/-- Settles O35: an address below `2 ^ W` is the value of its `W`-bit word, whose masked bits are its page and offset. -/
theorem pageAndOffsetAreTheMaskedBits : Obligations.PageAndOffsetAreTheMaskedBits := by
  intro mode64 a ha
  rw [toNat_and_not_pageMask, toNat_extractLsb_eq_off, BitVec.toNat_ofNat, Nat.mod_eq_of_lt ha]
  exact ⟨rfl, rfl, page_add_off a⟩

end Sys2Proof.Machine
end

section
/-! Every page-granular oracle is a `Translate` (R41, log entry 9): its answers at finitely many addresses are tabulated. -/

namespace Sys2Proof.Machine

/-- The table of a partial function at the listed keys. -/
def Table.tabulate {α : Type} (g : Nat → Option α) : List Nat → List (Nat × α)
  | [] => []
  | k :: ks =>
    match g k with
    | some v => Table.set (tabulate g ks) k v
    | none => tabulate g ks

/-- The table of a function reads as the function at the listed keys and as nothing elsewhere. -/
theorem Table.get_tabulate {α : Type} (g : Nat → Option α) (ks : List Nat) (j : Nat) :
    Table.get (Table.tabulate g ks) j = if j ∈ ks then g j else none := by
  induction ks with
  | nil => rfl
  | cons k ks ih =>
    rw [Table.tabulate]
    by_cases hj : j = k
    · subst hj
      cases hg : g j with
      | some v => simp
      | none => simp [ih, hg]
    · cases hg : g k with
      | some v => simp [Table.get_set_other _ _ _ hj, ih, hj]
      | none => simp [ih, hj]

theorem Table.get_tabulate_of_mem {α : Type} (g : Nat → Option α) {ks : List Nat} {j : Nat} (h : j ∈ ks) :
    Table.get (Table.tabulate g ks) j = g j := by
  rw [Table.get_tabulate, if_pos h]

/-- The physical frame an answer lies in, if it is an address. -/
def TranslateResult.frame? : TranslateResult → Option Nat
  | .ok p => some (p / 4096)
  | .fault _ => none

/-- The report of an answer, if it is a fault. -/
def TranslateResult.report? : TranslateResult → Option ExcReport
  | .ok _ => none
  | .fault e => some e

/-- `s` with the translation tables of an oracle: the frames of the asked pages, the frames of the asked addresses, and
the reports of the asked addresses that fault. -/
def State.withOracle (s : State) (oracle : Nat → TranslateResult) (asked : List Nat) : State :=
  { s with
    pageMap := Table.tabulate (fun a => (oracle a).frame?) (asked.map page)
    addrMap := Table.tabulate (fun a => (oracle a).frame?) asked
    pageFaults := Table.tabulate (fun a => (oracle a).report?) asked }

section Oracle

variable {s : State} {oracle : Nat → TranslateResult} {asked : List Nat} {a : Nat}

theorem get_pageMap_withOracle (ha : a ∈ asked) :
    Table.get (s.withOracle oracle asked).pageMap (page a) = (oracle (page a)).frame? :=
  Table.get_tabulate_of_mem _ (List.mem_map_of_mem ha)

theorem get_addrMap_withOracle (ha : a ∈ asked) :
    Table.get (s.withOracle oracle asked).addrMap a = (oracle a).frame? :=
  Table.get_tabulate_of_mem _ ha

theorem get_pageFaults_withOracle (ha : a ∈ asked) :
    Table.get (s.withOracle oracle asked).pageFaults a = (oracle a).report? :=
  Table.get_tabulate_of_mem _ ha

theorem page_eq_self_of_off (h : off a = 0) : page a = a := by
  have := page_add_off a
  omega

/-- Page-granularity (R41 (b)) is why the two frame tables together give the frame of every asked address: one whose page
resolves lies in the frame of its page, and every other one is looked up by itself. -/
theorem frameOf_withOracle (hpage : ∀ a p, oracle (page a) = .ok p → p % 4096 = 0 ∧ oracle a = .ok (p + off a))
    (ha : a ∈ asked) : (s.withOracle oracle asked).frameOf a = (oracle a).frame? := by
  rw [State.frameOf, get_pageMap_withOracle ha, get_addrMap_withOracle ha]
  cases hbase : oracle (page a) with
  | ok p =>
    obtain ⟨haligned, hresolves⟩ := hpage a p hbase
    have hoff := off_lt a
    have hframe : p / 4096 = (p + off a) / 4096 := by omega
    rw [hresolves]
    exact congrArg some hframe
  | fault e =>
    by_cases hoff : off a = 0
    · rw [page_eq_self_of_off hoff] at hbase
      rw [hbase, if_pos hoff]
      rfl
    · rw [if_neg hoff]
      rfl

/-- With the tables of a page-granular oracle that keeps offsets, `Translate` answers as the oracle does. -/
theorem translate_withOracle (hpage : ∀ a p, oracle (page a) = .ok p → p % 4096 = 0 ∧ oracle a = .ok (p + off a))
    (hoffset : ∀ a p, oracle a = .ok p → off p = off a) (ha : a ∈ asked) :
    (s.withOracle oracle asked).translate a = oracle a := by
  rw [State.translate, frameOf_withOracle hpage ha, get_pageFaults_withOracle ha]
  cases hanswer : oracle a with
  | ok p =>
    have haddress : 4096 * (p / 4096) + off a = p := by
      rw [← hoffset a p hanswer, Nat.mul_comm]
      exact page_add_off p
    exact congrArg TranslateResult.ok haddress
  | fault e => rfl

end Oracle

/-- Settles O43: the state holds the oracle by the tables of its answers. -/
theorem everyPageGranularOracleIsHeld : Obligations.EveryPageGranularOracleIsHeld :=
  fun s _ hpage hoffset _ => ⟨_, _, _, fun _ ha => translate_withOracle (s := s) hpage hoffset ha⟩

end Sys2Proof.Machine
end

section
/-! What EDECCSSA neither writes nor, of memory and program text, reads: memory (R48) and `Translate` (R41). -/

namespace Sys2Proof.Machine

/-- Data memory and the program text are outside the read set of R35. -/
theorem sameReads_memory (s : State) (m m' : Memory) : SameReads s { s with mem := m, text := m' } := by
  constructor <;> intros <;> rfl

/-- Settles O30: the commit keeps memory and text, which are outside the read set. -/
theorem noByteOfMemoryIsReadOrWritten : Obligations.NoByteOfMemoryIsReadOrWritten := by
  refine ⟨fun s u hnext a => ?_, fun s m m' => ?_⟩
  · obtain ⟨x, f, -, rfl⟩ := exec_next_iff_checkedFrame.1 hnext
    rw [commitFrame_mem, commitFrame_text]
    exact ⟨rfl, rfl⟩
  · exact exec_eq_mapNext (g := fun u => { u with mem := m, text := m' }) (sameReads_memory s m m') fun _ _ => rfl

/-- The commit writes none of the tables of `Translate`, nor the draw its free faults are at (R41, decision O5). -/
@[simp] theorem translate_commitFrame (s : State) (x : Context) (f : FrameAddrs) (a : Nat) :
    (commitFrame s x f).translate a = s.translate a := rfl

/-- Settles O42: the laws of `Translate` give the first two clauses, and the commit changes no answer of it. -/
theorem translateIsPageGranularAndKeptByCompletion : Obligations.TranslateIsPageGranularAndKeptByCompletion := by
  refine ⟨fun s a p hpage => (translate_of_page hpage).symm, fun s a p => translate_off, fun s u hnext a => ?_⟩
  obtain ⟨x, f, -, rfl⟩ := exec_next_iff_checkedFrame.1 hnext
  exact translate_commitFrame s x f a

end Sys2Proof.Machine
end

section
/-! What decoding answers, case by case, and that it agrees with the encoder and with the opcode table (R62, R64 to R66). -/

namespace Sys2Proof

/-- R65: ENCLU under another leaf number is not EDECCSSA. -/
theorem decode_enclu_of_ne_leaf {eax : BitVec 32} (h : eax ≠ edeccssaLeaf) (rest : List Byte) :
    decode eax (encluByte0 :: encluByte1 :: encluByte2 :: rest) = .error .otherLeaf := by
  rw [decode, if_pos ⟨rfl, rfl, rfl⟩, if_neg h]

/-- R66: three other bytes are not ENCLU, whatever EAX holds. -/
theorem decode_of_ne_enclu (eax : BitVec 32) {b0 b1 b2 : Byte}
    (h : ¬ (b0 = encluByte0 ∧ b1 = encluByte1 ∧ b2 = encluByte2)) (rest : List Byte) :
    decode eax (b0 :: b1 :: b2 :: rest) = .error .notEnclu := by
  rw [decode, if_neg h]

/-- R62: one or two bytes are only the beginning of an instruction. -/
theorem decode_of_length {bs : List Byte} (eax : BitVec 32) (h : bs.length = 1 ∨ bs.length = 2) :
    decode eax bs = .error .truncated := by
  rcases h with h | h
  · obtain ⟨b, rfl⟩ := List.length_eq_one_iff.1 h
    rfl
  · obtain ⟨b, b', rfl⟩ := List.length_eq_two.1 h
    rfl

/-- The opcode table's match under its mask holds of exactly the bytes of ENCLU: a byte is below 256, so the little-endian
word determines its three bytes (R49, R62). -/
theorem maskedWord_eq_match_iff (b0 b1 b2 : Byte) :
    (b0.toNat + 2 ^ 8 * b1.toNat + 2 ^ 16 * b2.toNat) &&& 0xFFFFFF = 0xD7010F ↔
      b0 = encluByte0 ∧ b1 = encluByte1 ∧ b2 = encluByte2 := by
  have hmask (w : Nat) : w &&& 0xFFFFFF = w % 2 ^ 24 := Nat.and_two_pow_sub_one_eq_mod w 24
  have h0 := b0.isLt
  have h1 := b1.isLt
  have h2 := b2.isLt
  rw [hmask, ← BitVec.toNat_inj, ← BitVec.toNat_inj, ← BitVec.toNat_inj]
  simp only [encluByte0, encluByte1, encluByte2, BitVec.toNat_ofNat]
  omega

/-- The admitted form is the bare one with leaf number 09H (R64, R66). -/
theorem EncluForm.wf_iff {f : EncluForm} : f.wf = true ↔ f.prefixes = [] ∧ f.leaf = edeccssaLeaf := by
  simp [EncluForm.wf, EncluForm.bare, EncluForm.selectsEdeccssa]

/-- The bytes of a form begin with those of ENCLU only where it is bare: no prefix byte is the first byte of ENCLU. -/
theorem EncluForm.bytes_append_eq_enclu_iff {f : EncluForm} {after rest : List Byte} :
    f.bytes ++ after = encluByte0 :: encluByte1 :: encluByte2 :: rest ↔ f.prefixes = [] ∧ rest = after := by
  obtain ⟨prefixes, leaf⟩ := f
  cases prefixes with
  | nil => simp [EncluForm.bytes, eq_comm]
  | cons p ps => simp [EncluForm.bytes, p.byte_ne]

/-- Every instruction of the model has the round trip: one case for each constructor. -/
theorem Instr.roundTrip (i : Instr) : Laws.RoundTrip.Statement i := by
  cases i with
  | edeccssa => exact Laws.RoundTrip.edeccssa

/-- Settles O3: decoding accepts only what begins with ENCLU under leaf 09H, and a form's bytes do so exactly where it is
bare. -/
theorem decodingAgreesWithEncodingAtEveryForm : Obligations.DecodingAgreesWithEncodingAtEveryForm := by
  refine ⟨fun f after i rest => ?_, fun i after _ => i.roundTrip.2 after⟩
  rw [decode_ok_iff, EncluForm.bytes_append_eq_enclu_iff, EncluForm.wf_iff]
  tauto

/-- Settles O2: the accepted bytes are those of ENCLU, which are the masked word of the table; they are three. -/
theorem decodingAcceptsExactlyTheMaskedWordUnderLeafNine :
    Obligations.DecodingAcceptsExactlyTheMaskedWordUnderLeafNine := by
  refine ⟨fun eax b0 b1 b2 after i rest => ?word, fun eax bs hshort => ?shorter⟩
  case word =>
    rw [decode_ok_iff, maskedWord_eq_match_iff]
    simp only [List.cons.injEq, edeccssaLeaf, eq_comm (a := rest)]
    tauto
  case shorter =>
    cases hdecode : decode eax bs with
    | error e => exact ⟨e, rfl⟩
    | ok decoded =>
      obtain ⟨-, -, rfl⟩ := decode_ok_iff.1 hdecode
      simp only [List.length_cons] at hshort
      omega

/-- Settles O1: the two other leaf numbers differ from 09H, and the prefixed bytes begin with another byte than ENCLU. -/
theorem encluBytesAreEdeccssaUnderLeafNineOnly : Obligations.EncluBytesAreEdeccssaUnderLeafNineOnly :=
  ⟨decode_ok_iff.2 ⟨rfl, rfl, rfl⟩, decode_enclu_of_ne_leaf (by decide) [], decode_enclu_of_ne_leaf (by decide) [],
    decode_of_ne_enclu 9 (by decide) [0xD7], Tests.test_decode_table_word.1⟩

end Sys2Proof
end

section
/-! What a step does with the answer of decoding: it runs the instruction, or refuses the bytes by name (R64 to R66, R135). -/

namespace Sys2Proof.Machine

theorem step_of_decode_ok {s : State} {i : Instr} {rest : List Byte} (h : decode s.eax s.fetchBytes = .ok (i, rest)) :
    step s = exec i s := by
  rw [step, h]

theorem step_of_decode_error {s : State} {e : Reject} (h : decode s.eax s.fetchBytes = .error e) :
    step s = .refused (rejectRefusal e) := by
  rw [step, h]

/-- R58: where the program text has no byte at `pc`, nothing is fetched. -/
theorem fetchBytes_of_readByte_none {s : State} (h : Memory.readByte s.text s.pc.toNat = none) : s.fetchBytes = [] := by
  rw [State.fetchBytes, maxInstrBytes, Memory.prefetch, h]

/-- Settles O4: nothing stands around `exec`. -/
theorem stepRunsTheDecodedInstruction : Obligations.StepRunsTheDecodedInstruction :=
  fun _ _ _ => step_of_decode_ok

/-- Settles O5: each kind of bytes is rejected by name, and a step refuses what decoding rejects. -/
theorem stepRefusesWhateverIsNotEdeccssa : Obligations.StepRefusesWhateverIsNotEdeccssa := by
  refine ⟨fun s hbytes hleaf => ?otherLeaf, fun s b0 b1 b2 hbytes hother => ?notEnclu, fun s hlength => ?truncated,
    fun s hnone => ?endOfProgram⟩
  case otherLeaf => exact step_of_decode_error (hbytes ▸ decode_enclu_of_ne_leaf hleaf [])
  case notEnclu => exact step_of_decode_error (hbytes ▸ decode_of_ne_enclu s.eax hother [])
  case truncated => exact step_of_decode_error (decode_of_length s.eax hlength)
  case endOfProgram => exact step_of_decode_error (e := .noBytes) (fetchBytes_of_readByte_none hnone ▸ rfl)

end Sys2Proof.Machine
end

section
/-! The outcome of EDECCSSA in a ready state is that of the frame's checks (R75 to R87), in the order of R115. -/

namespace Sys2Proof.Machine

/-- In a ready state, checks that pass complete the instruction with the commit of what they collected. -/
theorem Ready.exec_next {s : State} {t : Tcs} {e : Secs} {o : Nat} {f : FrameAddrs} (hready : Ready s t e o)
    (hframe : checkFrame s ⟨t, e, o⟩ = .ok f) : exec .edeccssa s = .next (commitFrame s ⟨t, e, o⟩ f) :=
  exec_next_iff_checkedFrame.2 ⟨⟨t, e, o⟩, f, checkedFrame_ok_iff.2 ⟨hready, hframe⟩, rfl⟩

/-- In a ready state, a fault of the checks is the outcome. -/
theorem Ready.exec_fault {s : State} {t : Tcs} {e : Secs} {o : Nat} {f : Fault} (hready : Ready s t e o)
    (hframe : checkFrame s ⟨t, e, o⟩ = .error (.raise f)) : exec .edeccssa s = .fault f := by
  obtain ⟨hleaf, hentry, hcontext, hpremises⟩ := ready_iff.1 hready
  exact exec_fault_iff.2 (edeccssaResult_error_iff.2
    (.inr ⟨hleaf, .inr ⟨t, hentry, .inr ⟨_, hcontext, .inr ⟨hpremises, hframe⟩⟩⟩⟩))

/-- The inversion of a completing EDECCSSA whose current TCS and active SECS are known. -/
theorem exec_next_commit {s u : State} {t : Tcs} {e : Secs} (hnext : exec .edeccssa s = .next u)
    (ht : s.currentTcs = some t) (he : s.activeSecs = some e) :
    ∃ o f, Ready s t e o ∧ checkFrame s ⟨t, e, o⟩ = .ok f ∧ u = commitFrame s ⟨t, e, o⟩ f := by
  obtain ⟨⟨t', e', o⟩, f, hchecked, rfl⟩ := exec_next_iff_checkedFrame.1 hnext
  obtain ⟨hready, hframe⟩ := checkedFrame_ok_iff.1 hchecked
  obtain rfl : t' = t := Option.some.inj (hready.tcs.symm.trans ht)
  obtain rfl : e' = e := Option.some.inj (hready.secs.symm.trans he)
  exact ⟨o, f, hready, hframe, rfl⟩

/-! ### What the checks collect where they pass -/

/-- The loop collects the addresses at which the XSAVE pages pass (R78). -/
theorem XsavePagesPass.checkPages_eq {s : State} {t : Tcs} {e : Secs} {o : Nat} {pas : Nat → Nat}
    (h : XsavePagesPass s t e o pas) :
    s.checkPages o .reg (visitedPages s.config t e) = .ok ((List.range (framePages s.config e)).map pas) := by
  refine checkPages_visited_iff.2 ⟨by simp, fun n hn => ?_⟩
  have hcollected : ((List.range (framePages s.config e)).map pas).getD n 0 = pas n := by simp [hn]
  simpa only [hcollected] using h n hn

/-- The answer of the CET part of the checks: the address of the save area where the gate holds, nothing elsewhere. -/
def cetAnswer (s : State) (t : Tcs) (e : Secs) (c : Nat) : Option Nat :=
  if cetGate s.config e = true then some (c + off (tmpCetSaveArea t e)) else none

theorem CetPagePasses.checkCet_eq {s : State} {t : Tcs} {e : Secs} {o c : Nat} (h : CetPagePasses s t e o c) :
    checkCet s ⟨t, e, o⟩ = .ok (cetAnswer s t e c) := by
  rw [checkCet_ok_iff]
  cases hgate : cetGate s.config e with
  | false => exact .inl ⟨rfl, by simp [cetAnswer, hgate]⟩
  | true => exact .inr ⟨rfl, c, pagePasses_iff.1 (h hgate), by simp [cetAnswer, hgate]⟩

/-- R99: where every check passes, the checks collect exactly the addresses the pages pass at. -/
theorem checkFrame_eq_of_passes {s : State} {t : Tcs} {e : Secs} {o g c : Nat} {pas : Nat → Nat}
    (hpages : XsavePagesPass s t e o pas) (hgpr : GprAreaPasses s t e o g) (hds : DsPasses s t e)
    (hcet : CetPagePasses s t e o c) :
    checkFrame s ⟨t, e, o⟩ =
      .ok { xsave := (List.range (framePages s.config e)).map pas, gpr := g, cet := cetAnswer s t e c } :=
  checkFrame_ok_iff.2 ⟨hpages.checkPages_eq, pagePasses_iff.1 hgpr, checkDs_ok_iff.2 hds, hcet.checkCet_eq⟩

/-- Settles O10: the outcome is the commit of the addresses the pages pass at. -/
theorem completesInTheStateOfTheRulesWhenEveryCheckPasses :
    Obligations.CompletesInTheStateOfTheRulesWhenEveryCheckPasses := by
  intro s t e o pas g c hready hpages hgpr hds hcet
  refine ⟨_, hready.exec_next (checkFrame_eq_of_passes hpages hgpr hds hcet), ?state, fun n hn => ?visited,
    fun n hn => ?unvisited⟩
  case state => cases hgate : cetGate s.config e <;> simp [commitFrame, flagsAfter, cetAnswer, hgate]
  case visited => simp [xsavePage_commitFrame, hn]
  case unvisited => simp [xsavePage_commitFrame, Nat.not_lt.2 hn]

/-- Settles O11: a completing EDECCSSA had every check pass, and with every check passing it completes. -/
theorem completesExactlyWhenEveryCheckPasses : Obligations.CompletesExactlyWhenEveryCheckPasses := by
  intro s
  constructor
  · rintro ⟨u, hnext⟩
    obtain ⟨t, e, o, f, hready, -, hpages, hgpr, hds, hcet, -⟩ := exec_next_cases hnext
    refine ⟨t, e, o, hready, ⟨_, hpages⟩, ⟨_, hgpr⟩, hds, ?_⟩
    rcases hcet with ⟨hclosed, -⟩ | ⟨-, c, hc, -⟩
    · exact ⟨0, fun hopen => absurd hopen (by simp [hclosed])⟩
    · exact ⟨c, fun _ => hc⟩
  · rintro ⟨t, e, o, hready, ⟨pas, hpages⟩, ⟨g, hgpr⟩, hds, c, hcet⟩
    exact ⟨_, hready.exec_next (checkFrame_eq_of_passes hpages hgpr hds hcet)⟩

end Sys2Proof.Machine
end

section
/-! The first check of the frame that does not pass is the outcome (R76, R77, R80, R81, R83, R86, R87, R115). -/

namespace Sys2Proof.Machine

/-- Where the end of a page's check is the outcome, a page that does not pass faults in one of two ways (R76, R77). -/
theorem exec_fault_of_badPage {s : State} {o : Nat} {ty : PageType} {a : Nat}
    (hends : ∀ f, s.checkPage o ty a = .error (.raise f) → exec .edeccssa s = .fault f) :
    (∀ r, s.translate a = .fault r → exec .edeccssa s = .fault (.translation r)) ∧
    (∀ p, s.translate a = .ok p → ¬ UsablePage s o ty a p → exec .edeccssa s = .fault (.pf a (s.pfErrorCode a))) :=
  ⟨fun r hr => hends _ (checkPage_error_iff.2 (.inl ⟨r, hr, rfl⟩)),
    fun p hp hbad => hends _ (checkPage_error_iff.2 (.inr ⟨p, hp, not_usablePage_iff.1 hbad, rfl⟩))⟩

/-- The loop visits the pages before `n`, then page `n` (R75). -/
theorem visitedPages_split {c : Config} {e : Secs} {n : Nat} (t : Tcs) (hn : n < framePages c e) :
    ∃ after, visitedPages c t e
      = (List.range n).map (fun m => tmpSsa t e + 4096 * m) ++ (tmpSsa t e + 4096 * n) :: after := by
  obtain ⟨d, hd⟩ := Nat.exists_eq_add_of_lt hn
  rw [visitedPages, hd, Nat.add_assoc, List.range_add, List.range_succ_eq_map, List.map_append, List.map_cons,
    List.map_cons]
  exact ⟨_, rfl⟩

/-- The loop ends as the check of its first page that does not pass does (R75). -/
theorem checkPages_visited_error {s : State} {t : Tcs} {e : Secs} {o n : Nat} {x : Stop} (hn : n < framePages s.config e)
    (hbefore : ∀ m, m < n → ∃ p, PagePasses s o .reg (tmpSsa t e + 4096 * m) p)
    (hbad : s.checkPage o .reg (tmpSsa t e + 4096 * n) = .error x) :
    s.checkPages o .reg (visitedPages s.config t e) = .error x := by
  obtain ⟨after, hsplit⟩ := visitedPages_split t hn
  refine checkPages_error_iff.2 ⟨_, _, after, hsplit, fun b hb => ?_, hbad⟩
  obtain ⟨m, hm, rfl⟩ := List.mem_map.1 hb
  obtain ⟨p, hp⟩ := hbefore m (List.mem_range.1 hm)
  exact ⟨p, pagePasses_iff.1 hp⟩

/-- Settles O19: the loop is the first of the frame's checks, and ends at its first bad page. -/
theorem firstBadXsavePageFaults : Obligations.FirstBadXsavePageFaults := by
  intro s t e o n hready hn hbefore
  exact exec_fault_of_badPage fun f hbad =>
    hready.exec_fault (checkFrame_error_iff.2 (.inl (checkPages_visited_error hn hbefore hbad)))

/-- Settles O20: the GPR area is checked next after the XSAVE pages. -/
theorem badGprAreaFaults : Obligations.BadGprAreaFaults := by
  intro s t e o pas hready hpages
  exact exec_fault_of_badPage fun f hbad =>
    hready.exec_fault (checkFrame_error_iff.2 (.inr ⟨_, hpages.checkPages_eq, .inl hbad⟩))

/-- What comes after the GPR area ends the frame's checks where the XSAVE pages and the GPR area pass. -/
theorem checkFrame_error_after_gpr {s : State} {t : Tcs} {e : Secs} {o g : Nat} {pas : Nat → Nat} {x : Stop}
    (hpages : XsavePagesPass s t e o pas) (hgpr : GprAreaPasses s t e o g)
    (hrest : checkDs s ⟨t, e, o⟩ = .error x ∨ checkDs s ⟨t, e, o⟩ = .ok () ∧ checkCet s ⟨t, e, o⟩ = .error x) :
    checkFrame s ⟨t, e, o⟩ = .error x :=
  checkFrame_error_iff.2 (.inr ⟨_, hpages.checkPages_eq, .inr ⟨g, pagePasses_iff.1 hgpr, hrest⟩⟩)

/-- Settles O22: where the DS test passes too and the gate holds, the check of the CET save page is the last. -/
theorem badCetSavePageFaults : Obligations.BadCetSavePageFaults := by
  intro s t e o pas g hready hpages hgpr hds hgate
  exact exec_fault_of_badPage fun f hbad => hready.exec_fault (checkFrame_error_after_gpr hpages hgpr
    (.inr ⟨checkDs_ok_iff.2 hds, checkCet_error_iff.2 ⟨hgate, hbad⟩⟩))

/-- R83: EDECCSSA reads DS at the last byte of the GPR area only, and outside 64-bit mode only. -/
theorem exec_withDs {s : State} {d : List (Nat × Nat)}
    (hds : ∀ t e, s.currentTcs = some t → s.activeSecs = some e → s.mode64 = false →
      ({ s with ds := d } : State).inDs (gprLast s.config t e) = s.inDs (gprLast s.config t e)) :
    exec .edeccssa { s with ds := d } = mapNext (fun u => { u with ds := d }) (exec .edeccssa s) := by
  have hreads : SameReads s { s with ds := d } :=
    ⟨rfl, rfl, rfl, rfl, rfl, rfl, rfl, rfl, rfl, rfl, fun _ _ _ _ _ _ _ => rfl, fun _ _ _ _ _ _ _ _ _ => rfl, hds⟩
  exact exec_eq_mapNext (g := fun u => { u with ds := d }) hreads fun _ _ => rfl

/-- Settles O21: the DS test comes after the GPR area, and is the only reader of DS. -/
theorem gprAreaOutsideDsRaisesGp0OutsideMode64 : Obligations.GprAreaOutsideDsRaisesGp0OutsideMode64 := by
  refine ⟨fun s t e o pas g hready hpages hgpr hmode houtside => ?raises, fun s d hmode => ?mode64,
    fun s d halike => ?lastByte⟩
  case raises =>
    exact hready.exec_fault (checkFrame_error_after_gpr hpages hgpr
      (.inl (checkDs_error_iff.2 ⟨hmode, houtside, rfl⟩)))
  case mode64 => exact exec_withDs fun _ _ _ _ hmode32 => absurd hmode (by simp [hmode32])
  case lastByte => exact exec_withDs fun t e ht he _ => halike t e ht he

end Sys2Proof.Machine
end

section
/-! The addresses of R73 to R85 under the premises of R97: where the frame, its pages and its GPR area lie. -/

namespace Sys2Proof.Machine

/-- Every frame is page-aligned where frame 0 is (R97 item 1). -/
theorem tmpSsa_aligned {t : Tcs} {e : Secs} (h : (t.ossa + e.baseAddr) % 4096 = 0) : tmpSsa t e % 4096 = 0 := by
  rw [tmpSsa, ssaFrame, Nat.mul_assoc, Nat.add_mul_mod_self_left]
  exact h

/-- With the exclusive end the loop visits `ceil(TMP_XSIZE / 4096)` pages (R75). -/
theorem framePages_of_exclusive {c : Config} (h : c.xsaveEndInclusive = false) (e : Secs) :
    framePages c e = (tmpXsize c e + 4095) / 4096 := by
  simp [framePages, xsavePageCount, h]

/-- Settles O32: the frame is aligned, so its pages are the aligned addresses from `TMP_SSA` on, and the count is the
ceiling. -/
theorem exclusiveLoopVisitsThePagesOfTheXsaveArea : Obligations.ExclusiveLoopVisitsThePagesOfTheXsaveArea := by
  intro c t e hexclusive haligned
  have hssa := tmpSsa_aligned haligned
  have hcount := framePages_of_exclusive hexclusive e
  refine ⟨fun a => ?overlap, by omega, fun k hk => by omega⟩
  rw [mem_visitedPages]
  constructor
  · rintro ⟨n, hn, rfl⟩
    omega
  · rintro ⟨ha, hbelow, habove⟩
    exact ⟨(a - tmpSsa t e) / 4096, by omega, by omega⟩

/-- The base of the last page of the target frame. -/
def lastPage (t : Tcs) (e : Secs) : Nat := tmpSsa t e + 4096 * (e.ssaFrameSize - 1)

namespace Ready

variable {s : State} {t : Tcs} {e : Secs} {o : Nat}

theorem lastPage_aligned (h : Ready s t e o) : lastPage t e % 4096 = 0 := by
  rw [lastPage, Nat.add_mul_mod_self_left]
  exact tmpSsa_aligned h.aligned

/-- The frame ends where its last page does (R97 item 2). -/
theorem lastPage_add (h : Ready s t e o) : lastPage t e + 4096 = tmpSsa t e + 4096 * e.ssaFrameSize := by
  have := h.frameSize
  rw [lastPage]
  omega

/-- The GPR area begins `GPRSGX_SIZE` bytes before the end of the last page (R79). -/
theorem tmpGpr_eq (h : Ready s t e o) : tmpGpr s.config t e = lastPage t e + (4096 - s.config.gprsgxSize) := by
  have := h.gprSizeMax
  rw [tmpGpr, ← h.lastPage_add]
  omega

/-- The GPR area ends with the last page (R79, R83). -/
theorem gprLast_eq (h : Ready s t e o) : gprLast s.config t e = lastPage t e + 4095 := by
  have := h.gprSizeMax
  rw [gprLast, h.tmpGpr_eq]
  omega

theorem off_tmpGpr (h : Ready s t e o) : off (tmpGpr s.config t e) = 4096 - s.config.gprsgxSize := by
  have := h.gprSizePos
  rw [h.tmpGpr_eq]
  exact off_eq_of_aligned h.lastPage_aligned (by omega)

theorem page_tmpGpr (h : Ready s t e o) : page (tmpGpr s.config t e) = lastPage t e := by
  have := h.gprSizePos
  rw [h.tmpGpr_eq]
  exact page_eq_of_aligned h.lastPage_aligned (by omega)

theorem page_gprLast (h : Ready s t e o) : page (gprLast s.config t e) = lastPage t e := by
  rw [h.gprLast_eq]
  exact page_eq_of_aligned h.lastPage_aligned (by omega)

/-- The frame holds at least one page, so its base lies below `2 ^ W` (R97 item 2, R98). -/
theorem tmpSsa_lt (h : Ready s t e o) : tmpSsa t e < 2 ^ s.width := by
  have := h.frameFits
  have := h.frameSize
  omega

theorem visitedPage_lt (h : Ready s t e o) {n : Nat} (hn : n < framePages s.config e) :
    tmpSsa t e + 4096 * n < 2 ^ s.width := by
  have := h.pagesFit _ (mem_visitedPages.2 ⟨n, hn, rfl⟩)
  omega

theorem tmpGpr_lt (h : Ready s t e o) : tmpGpr s.config t e < 2 ^ s.width := by
  have := h.frameFits
  have := h.gprSizePos
  rw [h.tmpGpr_eq]
  have := h.lastPage_add
  omega

theorem gprsgxSize_lt (h : Ready s t e o) : s.config.gprsgxSize < 2 ^ s.width := by
  have h4096 : 2 ^ 12 < 2 ^ s.width := Nat.pow_lt_pow_right (by omega) (by unfold State.width; split <;> omega)
  have := h.gprSizeMax
  omega

theorem gprsgxSize_le (h : Ready s t e o) : s.config.gprsgxSize ≤ tmpSsa t e + 4096 * e.ssaFrameSize := by
  have := h.gprSizeMax
  have := h.lastPage_add
  omega

end Ready

/-- Settles O33: the GPR area begins and ends in the last page, and ends with it. -/
theorem gprAreaEndsTheLastPageOfTheFrame : Obligations.GprAreaEndsTheLastPageOfTheFrame := by
  intro s t e o hready
  refine ⟨hready.page_tmpGpr, hready.page_gprLast, ?_⟩
  rw [hready.gprLast_eq, Nat.add_assoc]
  exact hready.lastPage_add

/-- A bit vector that stands for a natural number below `2 ^ w` has that number as its value. -/
theorem toNat_eq_of_eq_ofNat {w n : Nat} {x : BitVec w} (h : x = BitVec.ofNat w n) (hn : n < 2 ^ w) : x.toNat = n := by
  rw [h, BitVec.toNat_ofNat, Nat.mod_eq_of_lt hn]

/-- Settles O34: `BitVec.ofNat` carries sums, products and differences over, and the premises bound every address by
`2 ^ W` (R98). -/
theorem addressesAgreeWithBitVectorArithmetic : Obligations.AddressesAgreeWithBitVectorArithmetic := by
  intro s t e o hready
  refine ⟨toNat_eq_of_eq_ofNat ?frame hready.tmpSsa_lt, fun n hn => toNat_eq_of_eq_ofNat ?page (hready.visitedPage_lt hn),
    toNat_eq_of_eq_ofNat ?gpr hready.tmpGpr_lt, fun hgate => toNat_eq_of_eq_ofNat ?cet ?cetFits⟩
  case frame => simp only [tmpSsa, ssaFrame, BitVec.ofNat_add, BitVec.ofNat_mul, BitVec.ofNat_eq_ofNat]
  case page => simp only [BitVec.ofNat_add, BitVec.ofNat_mul, BitVec.ofNat_eq_ofNat]
  case gpr =>
    rw [tmpGpr, ← BitVec.ofNat_sub_ofNat_of_le _ _ hready.gprsgxSize_lt hready.gprsgxSize_le, BitVec.ofNat_add,
      BitVec.ofNat_mul]
    rfl
  case cet => simp only [tmpCetSaveArea, cetFrame, BitVec.ofNat_add, BitVec.ofNat_mul, BitVec.ofNat_eq_ofNat]
  case cetFits =>
    have := hready.cetFits hgate
    omega

end Sys2Proof.Machine
end

section
/-! What the commit of a completing EDECCSSA loads (R89 to R93). -/

namespace Sys2Proof.Machine

/-- Settles O9: the second entry check raises `#GP(0)` at 0, and a completing step started from a `Ready` state. -/
theorem cssaZeroRaisesGp0 : Obligations.CssaZeroRaisesGp0 := by
  refine ⟨fun s t hready hsupported hinside ht hzero => ?_, fun s u hnext => ?_⟩
  · exact exec_fault_of_entryChecks hready hsupported
      (entryChecks_error_iff.2 (.inr (.inr ⟨hinside, ⟨t, ht, hzero⟩, rfl⟩)))
  · obtain ⟨t, _, _, _, hready, -⟩ := exec_next_cases hnext
    exact ⟨t, hready.tcs, Nat.one_le_iff_ne_zero.2 hready.cssa⟩

/-- Settles O12: the commit writes the decremented TCS over the current one. -/
theorem completionDecrementsCssa : Obligations.CompletionDecrementsCssa := by
  intro s u hnext
  obtain ⟨t, _, _, _, hready, -, -, -, -, -, rfl⟩ := exec_next_cases hnext
  exact ⟨t, hready.tcs, Nat.one_le_iff_ne_zero.2 hready.cssa, currentTcs_commitFrame ..⟩

/-- Settles O13: `CR_GPR_PA` is the address the check of the GPR area answered, and translation keeps the offset. -/
theorem completionLoadsTheAddressOfTheGprArea : Obligations.CompletionLoadsTheAddressOfTheGprArea := by
  intro s u t e hnext ht he
  obtain ⟨o, f, hready, hframe, rfl⟩ := exec_next_commit hnext ht he
  obtain ⟨-, hgpr, -, -⟩ := checkFrame_ok_iff.1 hframe
  obtain ⟨hresolves, -⟩ := checkPage_ok_iff.1 hgpr
  exact ⟨hresolves, translate_off hresolves, (translate_off hresolves).trans hready.off_tmpGpr⟩

/-- Settles O14: the loop's answers are the visited elements of `CR_XSAVE_PAGE`, and the commit writes no other. -/
theorem completionLoadsTheXsavePagesOfTheTargetFrame : Obligations.CompletionLoadsTheXsavePagesOfTheTargetFrame := by
  rintro s u t e _ _ hnext ht he rfl rfl
  obtain ⟨o, f, -, hframe, rfl⟩ := exec_next_commit hnext ht he
  obtain ⟨hpages, -, -, -⟩ := checkFrame_ok_iff.1 hframe
  obtain ⟨hlength, hpasses⟩ := checkPages_visited_iff.1 hpages
  refine ⟨fun n hn => ?visited, fun n hn => ?unvisited⟩
  case visited =>
    rw [xsavePage_commitFrame, if_pos (hlength ▸ hn)]
    exact (hpasses n hn).resolves
  case unvisited => rw [xsavePage_commitFrame, if_neg (Nat.not_lt.2 (hlength ▸ hn))]

/-- The CET gate in the terms of R84. -/
theorem cetGate_iff {c : Config} {e : Secs} :
    cetGate c e = true ↔ c.cetEnum = true ∧ (e.shStkEn = true ∨ e.endbrEn = true) := by
  rw [cetGate, Bool.and_eq_true, Bool.or_eq_true]

/-- Settles O15: where the gate holds the save page resolved, and with it the save area at its own offset (R41 (b)). -/
theorem completionLoadsTheCetSaveAreaWhereTheGateHolds :
    Obligations.CompletionLoadsTheCetSaveAreaWhereTheGateHolds := by
  rintro s u t e _ hnext ht he rfl
  obtain ⟨o, f, -, hframe, rfl⟩ := exec_next_commit hnext ht he
  obtain ⟨-, -, -, hcet⟩ := checkFrame_ok_iff.1 hframe
  rw [← cetGate_iff, commitFrame_crCetSaveAreaPa]
  rcases checkCet_ok_iff.1 hcet with ⟨hclosed, hnone⟩ | ⟨hopen, c, hc, hsome⟩
  · rw [hnone]
    exact ⟨fun hopen => absurd hopen (by simp [hclosed]), fun _ => rfl⟩
  · rw [hsome]
    obtain ⟨hresolves, -⟩ := checkPage_ok_iff.1 hc
    exact ⟨fun _ => ⟨(translate_of_page hresolves).1, c, hresolves, rfl⟩, fun hclosed => absurd hopen hclosed⟩

/-- Settles O17: the premise of R97 item 5 keeps the sum within the width. -/
theorem completionAdvancesPcPastTheInstruction : Obligations.CompletionAdvancesPcPastTheInstruction := by
  intro s u hnext
  obtain ⟨t, e, o, f, hready, -, -, -, -, -, rfl⟩ := exec_next_cases hnext
  have hpc := toNat_pc_commitFrame hready.pcFits ⟨t, e, o⟩ f
  refine ⟨rfl, hpc, ?_⟩
  rw [hpc, State.width_commitFrame]
  exact hready.pcFits

end Sys2Proof.Machine
end

section
/-! With the CET gate closed no CET field is read (R84): the checks answer alike in a state with other CET fields. -/

namespace Sys2Proof.Machine

/-- A change of `TCS.OCETSSA` and of the two enable bits, at most. -/
structure CetFieldsOnly (k : Tcs → Tcs) (j : Secs → Secs) : Prop where
  cssa         : ∀ t, (k t).cssa = t.cssa
  ossa         : ∀ t, (k t).ossa = t.ossa
  baseAddr     : ∀ e, (j e).baseAddr = e.baseAddr
  ssaFrameSize : ∀ e, (j e).ssaFrameSize = e.ssaFrameSize
  xfrm         : ∀ e, (j e).xfrm = e.xfrm

/-- `s` with other TCSs and SECSs. -/
def State.withStructures (s : State) (tcss : List (Nat × Tcs)) (secss : List (Nat × Secs)) : State :=
  { s with tcss := tcss, secss := secss }

/-- The context with its TCS changed by `k` and its SECS by `j`. -/
def Context.change (k : Tcs → Tcs) (j : Secs → Secs) (x : Context) : Context := ⟨k x.tcs, j x.secs, x.owner⟩

/-- Two sequences correspond where their first parts do and what they go on with does. -/
theorem bind_eq_map_bind {ε α α' β β' : Type} {x : Except ε α} {x' : Except ε α'} {k : α → α'} {K : β → β'}
    {f : α → Except ε β} {f' : α' → Except ε β'} (hx : x' = k <$> x) (hf : ∀ a, x = .ok a → f' (k a) = K <$> f a) :
    (x' >>= f') = K <$> (x >>= f) := by
  subst hx
  cases x with
  | error e => rfl
  | ok a => exact hf a rfl

section ClosedGate

variable {s : State} {k : Tcs → Tcs} {j : Secs → Secs} {tcss : List (Nat × Tcs)} {secss : List (Nat × Secs)}

theorem CetFieldsOnly.tmpSsa_eq (h : CetFieldsOnly k j) (t : Tcs) (e : Secs) : tmpSsa (k t) (j e) = tmpSsa t e := by
  simp only [tmpSsa, ssaFrame, h.cssa, h.ossa, h.baseAddr, h.ssaFrameSize]

theorem CetFieldsOnly.tmpXsize_eq (h : CetFieldsOnly k j) (c : Config) (e : Secs) : tmpXsize c (j e) = tmpXsize c e := by
  simp only [tmpXsize, h.xfrm]

theorem CetFieldsOnly.framePages_eq (h : CetFieldsOnly k j) (c : Config) (e : Secs) :
    framePages c (j e) = framePages c e := by
  simp only [framePages, h.tmpXsize_eq]

theorem CetFieldsOnly.visitedPages_eq (h : CetFieldsOnly k j) (c : Config) (t : Tcs) (e : Secs) :
    visitedPages c (k t) (j e) = visitedPages c t e := by
  simp only [visitedPages, h.framePages_eq, h.tmpSsa_eq]

theorem CetFieldsOnly.tmpGpr_eq (h : CetFieldsOnly k j) (c : Config) (t : Tcs) (e : Secs) :
    tmpGpr c (k t) (j e) = tmpGpr c t e := by
  simp only [tmpGpr, h.tmpSsa_eq, h.ssaFrameSize]

theorem CetFieldsOnly.gprLast_eq (h : CetFieldsOnly k j) (c : Config) (t : Tcs) (e : Secs) :
    gprLast c (k t) (j e) = gprLast c t e := by
  simp only [gprLast, h.tmpGpr_eq]

theorem entryChecks_withStructures (h : CetFieldsOnly k j)
    (htcs : (s.withStructures tcss secss).currentTcs = s.currentTcs.map k) :
    entryChecks (s.withStructures tcss secss) = k <$> entryChecks s := by
  have hinside : (s.withStructures tcss secss).inEnclave = s.inEnclave := rfl
  rw [entryChecks, entryChecks, htcs, hinside]
  cases s.inEnclave with
  | false => rfl
  | true =>
    cases s.currentTcs with
    | none => rfl
    | some t =>
      simp only [Option.map_some, h.cssa]
      by_cases hcssa : t.cssa = 0
      · rw [if_pos hcssa, if_pos hcssa]
        rfl
      · rw [if_neg hcssa, if_neg hcssa]
        rfl

theorem enclaveContext_withStructures
    (hsecs : (s.withStructures tcss secss).activeSecs = s.activeSecs.map j) (t : Tcs) :
    enclaveContext (s.withStructures tcss secss) (k t) = Context.change k j <$> enclaveContext s t := by
  have howner : (s.withStructures tcss secss).tcsOwner = s.tcsOwner := rfl
  have hvalid : (s.withStructures tcss secss).tcsValid = s.tcsValid := rfl
  rw [enclaveContext, enclaveContext, hsecs, howner, hvalid]
  cases s.activeSecs with
  | none => rfl
  | some e =>
    cases s.tcsOwner with
    | none => rfl
    | some o => cases s.tcsValid <;> rfl

theorem checkPremises_withStructures (h : CetFieldsOnly k j) {x : Context} (hclosed : cetGate s.config x.secs = false)
    (hclosed' : cetGate s.config (j x.secs) = false) :
    checkPremises (s.withStructures tcss secss) (x.change k j) = checkPremises s x := by
  have hconfig : (s.withStructures tcss secss).config = s.config := rfl
  have hwidth : (s.withStructures tcss secss).width = s.width := rfl
  have hpc : (s.withStructures tcss secss).pc = s.pc := rfl
  simp only [checkPremises, failedPremise, Context.change, hconfig, hwidth, hpc, hclosed, hclosed', h.ossa, h.baseAddr,
    h.ssaFrameSize, h.tmpXsize_eq, h.tmpSsa_eq, h.framePages_eq, Bool.false_eq_true, false_and, if_false]

theorem checkPages_withStructures (o : Nat) (ty : PageType) (as : List Nat) :
    (s.withStructures tcss secss).checkPages o ty as = s.checkPages o ty as :=
  checkPages_congr fun _ _ => rfl

theorem checkDs_withStructures (h : CetFieldsOnly k j) (x : Context) :
    checkDs (s.withStructures tcss secss) (x.change k j) = checkDs s x := by
  have hlast := h.gprLast_eq s.config x.tcs x.secs
  rw [checkDs, checkDs, ← hlast]
  rfl

/-- R84: where the gate does not hold, the CET part of the checks passes and answers nothing. -/
theorem checkCet_of_closed {x : Context} (hclosed : cetGate s.config x.secs = false) : checkCet s x = .ok none :=
  checkCet_ok_iff.2 (.inl ⟨hclosed, rfl⟩)

theorem checkFrame_withStructures (h : CetFieldsOnly k j) {x : Context} (hclosed : cetGate s.config x.secs = false)
    (hclosed' : cetGate s.config (j x.secs) = false) :
    checkFrame (s.withStructures tcss secss) (x.change k j) = checkFrame s x := by
  have hpage (a : Nat) : (s.withStructures tcss secss).checkPage (x.change k j).owner .reg a = s.checkPage x.owner .reg a :=
    rfl
  have hpages : visitedPages (s.withStructures tcss secss).config (x.change k j).tcs (x.change k j).secs
      = visitedPages s.config x.tcs x.secs := h.visitedPages_eq _ _ _
  have hgpr : tmpGpr (s.withStructures tcss secss).config (x.change k j).tcs (x.change k j).secs
      = tmpGpr s.config x.tcs x.secs := h.tmpGpr_eq _ _ _
  have hcet : checkCet (s.withStructures tcss secss) (x.change k j) = .ok none := checkCet_of_closed hclosed'
  rw [checkFrame, checkFrame, hpages, hgpr, hpage, checkPages_withStructures, checkDs_withStructures h, hcet,
    checkCet_of_closed hclosed]
  rfl

/-- The idea of R84: where the gate is closed before and after the change, everything before the commit is as before, but
for the changed fields of the context. -/
theorem checkedFrame_withStructures (h : CetFieldsOnly k j)
    (htcs : (s.withStructures tcss secss).currentTcs = s.currentTcs.map k)
    (hsecs : (s.withStructures tcss secss).activeSecs = s.activeSecs.map j)
    (hclosed : ∀ e, s.activeSecs = some e → cetGate s.config e = false ∧ cetGate s.config (j e) = false) :
    checkedFrame (s.withStructures tcss secss) = Prod.map (Context.change k j) id <$> checkedFrame s := by
  refine bind_eq_map_bind (id_map (reachLeaf s)).symm fun _ _ => ?_
  refine bind_eq_map_bind (entryChecks_withStructures h htcs) fun t _ => ?_
  refine bind_eq_map_bind (enclaveContext_withStructures hsecs t) fun x hcontext => ?_
  obtain ⟨-, he, -, -⟩ := enclaveContext_ok_iff.1 hcontext
  obtain ⟨hbefore, hafter⟩ := hclosed _ he
  refine bind_eq_map_bind (k := id) ?premises fun _ _ => bind_eq_map_bind (k := id) ?frame fun f _ => rfl
  case premises => rw [id_map, checkPremises_withStructures h hbefore hafter]
  case frame => rw [id_map, checkFrame_withStructures h hbefore hafter]

/-- Where a change of the state changes only the context that the checks answer, and the commit carries it over, the
instruction carries it over. -/
theorem exec_eq_mapNext_of_context {s' : State} {g : State → State} {K : Context → Context}
    (hchecked : checkedFrame s' = Prod.map K id <$> checkedFrame s)
    (hcommit : ∀ x f, checkedFrame s = .ok (x, f) → commitFrame s' (K x) f = g (commitFrame s x f)) :
    exec .edeccssa s' = mapNext g (exec .edeccssa s) := by
  rw [exec_edeccssa, exec_edeccssa, edeccssaResult_eq_checkedFrame_bind, edeccssaResult_eq_checkedFrame_bind, hchecked]
  rcases hanswer : checkedFrame s with (_ | _) | ⟨x, f⟩
  · rfl
  · rfl
  · exact congrArg Host.Outcome.next (hcommit x f hanswer)

/-- Where EDECCSSA does not complete, there is no next state to change. -/
theorem mapNext_exec_of_not_next {g : State → State} (h : ∀ u, exec .edeccssa s ≠ .next u) :
    mapNext g (exec .edeccssa s) = exec .edeccssa s := by
  cases hexec : exec .edeccssa s with
  | next u => exact absurd hexec (h u)
  | fault f => rfl
  | refused r => rfl

end ClosedGate

/-! ### The two changes of R84 -/

def Tcs.withOcetssa (v : Nat) (t : Tcs) : Tcs := { t with ocetssa := v }

def Secs.withCetBits (b b' : Bool) (e : Secs) : Secs := { e with shStkEn := b, endbrEn := b' }

theorem cetFieldsOnly_withOcetssa (v : Nat) : CetFieldsOnly (Tcs.withOcetssa v) id := by
  constructor <;> intro _ <;> rfl

theorem cetFieldsOnly_withCetBits (b b' : Bool) : CetFieldsOnly id (Secs.withCetBits b b') := by
  constructor <;> intro _ <;> rfl

theorem State.withOcetssa_of_some {s : State} {t : Tcs} (ht : s.currentTcs = some t) (v : Nat) :
    s.withOcetssa v = s.withStructures (Table.set s.tcss s.crTcsPa (t.withOcetssa v)) s.secss := by
  rw [State.withOcetssa, ht]
  rfl

theorem State.withOcetssa_of_none {s : State} (ht : s.currentTcs = none) (v : Nat) : s.withOcetssa v = s := by
  rw [State.withOcetssa, ht]

theorem State.withCetBits_of_some {s : State} {e : Secs} (he : s.activeSecs = some e) (b b' : Bool) :
    s.withCetBits b b' = s.withStructures s.tcss (Table.set s.secss s.crActiveSecs (e.withCetBits b b')) := by
  rw [State.withCetBits, he]
  rfl

theorem State.withCetBits_of_none {s : State} (he : s.activeSecs = none) (b b' : Bool) : s.withCetBits b b' = s := by
  rw [State.withCetBits, he]

/-- R84: with the gate closed EDECCSSA does not read `TCS.OCETSSA`. -/
theorem exec_withOcetssa {s : State} {e : Secs} (he : s.activeSecs = some e) (hclosed : cetGate s.config e = false)
    (v : Nat) : exec .edeccssa (s.withOcetssa v) = mapNext (State.withOcetssa v) (exec .edeccssa s) := by
  cases ht : s.currentTcs with
  | none =>
    rw [State.withOcetssa_of_none ht, mapNext_exec_of_not_next]
    intro u hnext
    obtain ⟨t, htcs, -⟩ := cssaZeroRaisesGp0.2 s u hnext
    exact absurd (ht.symm.trans htcs) (by simp)
  | some t =>
    rw [State.withOcetssa_of_some ht]
    refine exec_eq_mapNext_of_context (checkedFrame_withStructures (cetFieldsOnly_withOcetssa v) ?tcs ?secs ?closed)
      fun x f _ => ?commit
    case tcs => rw [ht]; exact Table.get_set_self _ _ _
    case secs => exact Option.map_id_apply.symm
    case closed =>
      intro e' he'
      obtain rfl : e = e' := Option.some.inj (he.symm.trans he')
      exact ⟨hclosed, hclosed⟩
    case commit =>
      rw [State.withOcetssa_of_some (currentTcs_commitFrame s x f)]
      simp [commitFrame, State.withStructures, Table.set_set, Context.change, Tcs.withOcetssa]

/-- R84: with `CET_ENUM = 0` EDECCSSA does not read the two enable bits. -/
theorem exec_withCetBits {s : State} (henum : s.config.cetEnum = false) (b b' : Bool) :
    exec .edeccssa (s.withCetBits b b') = mapNext (State.withCetBits b b') (exec .edeccssa s) := by
  cases he : s.activeSecs with
  | none =>
    rw [State.withCetBits_of_none he, mapNext_exec_of_not_next]
    intro u hnext
    obtain ⟨_, _, _, _, hready, -⟩ := exec_next_cases hnext
    exact absurd (he.symm.trans hready.secs) (by simp)
  | some e =>
    rw [State.withCetBits_of_some he]
    have hclosed (e : Secs) : cetGate s.config e = false := by simp [cetGate, henum]
    refine exec_eq_mapNext_of_context (checkedFrame_withStructures (cetFieldsOnly_withCetBits b b') ?tcs ?secs
      fun e' _ => ⟨hclosed e', hclosed _⟩) fun x f _ => ?commit
    case tcs => exact Option.map_id_apply.symm
    case secs => rw [he]; exact Table.get_set_self _ _ _
    case commit =>
      rw [State.withCetBits_of_some (s := commitFrame s x f) he]
      rfl

/-- Settles O16: with the gate closed nothing before the commit depends on a CET field, and with it open the check of the
CET save page passed. -/
theorem closedCetGateReadsNoCetField : Obligations.ClosedCetGateReadsNoCetField := by
  refine ⟨fun s e v he hclosed => ?_, fun s b b' henum => exec_withCetBits henum b b',
    fun s u t e o ht he ho hopen hnext => ?_⟩
  · rw [← cetGate_iff, Bool.not_eq_true] at hclosed
    exact exec_withOcetssa he hclosed v
  · obtain ⟨o', hready, hpasses⟩ := exec_next_checked hnext ht he
    obtain rfl : o' = o := Option.some.inj (hready.owner.symm.trans ho)
    exact hpasses .ssRest _ (.cet (cetGate_iff.2 hopen))

end Sys2Proof.Machine
end

section
/-! Which endings of EDECCSSA are refusals: only those before the frame's checks (R97, R98, R131). -/

namespace Sys2Proof.Machine

theorem ne_refuse_of_checkPage_error {s : State} {o : Nat} {ty : PageType} {a : Nat} {x : Stop}
    (h : s.checkPage o ty a = .error x) (r : Refusal) : x ≠ .refuse r := by
  rcases checkPage_error_iff.1 h with ⟨_, -, rfl⟩ | ⟨_, -, -, rfl⟩ <;> exact Stop.noConfusion

/-- The frame's checks fault or pass: none of the four refuses (R75 to R87). -/
theorem checkFrame_ne_refuse (s : State) (x : Context) (r : Refusal) : checkFrame s x ≠ .error (.refuse r) := by
  intro h
  rcases checkFrame_error_iff.1 h with hpages | ⟨_, -, hgpr | ⟨_, -, hds | ⟨-, hcet⟩⟩⟩
  · obtain ⟨_, _, _, -, -, hpage⟩ := checkPages_error_iff.1 hpages
    exact ne_refuse_of_checkPage_error hpage r rfl
  · exact ne_refuse_of_checkPage_error hgpr r rfl
  · obtain ⟨-, -, hgp0⟩ := checkDs_error_iff.1 hds
    cases hgp0
  · exact ne_refuse_of_checkPage_error (checkCet_error_iff.1 hcet).2 r rfl

/-- In a ready state the instruction completes or faults. -/
theorem Ready.exec_ne_refused {s : State} {t : Tcs} {e : Secs} {o : Nat} (hready : Ready s t e o) (r : Refusal) :
    exec .edeccssa s ≠ .refused r := by
  cases hframe : checkFrame s ⟨t, e, o⟩ with
  | ok f => simp [hready.exec_next hframe]
  | error y =>
    cases y with
    | raise f => simp [hready.exec_fault hframe]
    | refuse r => exact absurd hframe (checkFrame_ne_refuse s _ r)

/-- Where control does not reach the leaf the instruction is refused (L1 of R131), so a refusal can be shown past it. -/
theorem exec_refused_of_past_leaf {s : State} (h : reachLeaf s = .ok () → ∃ r, exec .edeccssa s = .refused r) :
    ∃ r, exec .edeccssa s = .refused r := by
  cases hleaf : reachLeaf s with
  | ok => exact h hleaf
  | error y =>
    rcases reachLeaf_error_iff.1 hleaf with ⟨-, rfl⟩ | ⟨-, -, rfl⟩ <;>
      exact ⟨_, exec_refused_iff.2 (edeccssaResult_error_iff.2 (.inl hleaf))⟩

/-- Past the entry checks the instruction is refused where the state is not ready: a structure is missing, the TCS is not
valid, or a premise fails (L2 and L3 of R131, R97, R98). -/
theorem exec_refused_of_not_ready {s : State} {t : Tcs} (hleaf : reachLeaf s = .ok ()) (hentry : entryChecks s = .ok t)
    (hnot : ¬ ∃ e o, Ready s t e o) : ∃ r, exec .edeccssa s = .refused r := by
  cases hcontext : enclaveContext s t with
  | error y =>
    have hrefuse : ∃ r, y = .refuse r := by
      rcases enclaveContext_error_iff.1 hcontext with ⟨-, rfl⟩ | ⟨-, -, rfl⟩ | ⟨-, -, -, rfl⟩ <;> exact ⟨_, rfl⟩
    obtain ⟨r, rfl⟩ := hrefuse
    exact ⟨r, exec_refused_iff.2 (edeccssaResult_error_iff.2 (.inr ⟨hleaf, .inr ⟨t, hentry, .inl hcontext⟩⟩))⟩
  | ok x =>
    obtain ⟨rfl, -⟩ := enclaveContext_ok_iff.1 hcontext
    cases hpremise : failedPremise s x with
    | none => exact absurd ⟨_, _, ready_iff.2 ⟨hleaf, hentry, hcontext, hpremise⟩⟩ hnot
    | some r =>
      exact ⟨r, exec_refused_iff.2 (edeccssaResult_error_iff.2 (.inr ⟨hleaf, .inr ⟨x.tcs, hentry,
        .inr ⟨x, hcontext, .inl (checkPremises_error_iff.2 ⟨r, hpremise, rfl⟩)⟩⟩⟩))⟩

/-- Settles O26: each refusal stands before the frame's checks, and each state named here ends in one. -/
theorem refusesExactlyWhereTheRulesGiveNoMeaning : Obligations.RefusesExactlyWhereTheRulesGiveNoMeaning := by
  intro s
  constructor
  · rintro ⟨r, hrefused⟩
    rcases edeccssaResult_error_iff.1 (exec_refused_iff.1 hrefused) with hleaf | ⟨-, hentry | ⟨t, hentry, -⟩⟩
    · rcases reachLeaf_error_iff.1 hleaf with ⟨hnotReady, -⟩ | ⟨-, hunsupported, -⟩
      · exact .inl hnotReady
      · exact .inr (.inl hunsupported)
    · rcases entryChecks_error_iff.1 hentry with ⟨-, ⟨⟩⟩ | ⟨hinside, hnone, -⟩ | ⟨-, -, ⟨⟩⟩
      exact .inr (.inr (.inl ⟨hinside, hnone⟩))
    · obtain ⟨hinside, ht, hcssa⟩ := entryChecks_ok_iff.1 hentry
      exact .inr (.inr (.inr ⟨t, hinside, ht, hcssa, fun ⟨_, _, hready⟩ => hready.exec_ne_refused r hrefused⟩))
  · rintro (hnotReady | hunsupported | ⟨hinside, hnone⟩ | ⟨t, hinside, ht, hcssa, hnot⟩) <;>
      refine exec_refused_of_past_leaf fun hleaf => ?_
    · exact absurd (reachLeaf_ok_iff.1 hleaf).1 (by simp [hnotReady])
    · exact absurd (reachLeaf_ok_iff.1 hleaf).2 (by simp [hunsupported])
    · exact ⟨_, exec_refused_iff.2 (edeccssaResult_error_iff.2 (.inr ⟨hleaf,
        .inl (entryChecks_error_iff.2 (.inr (.inl ⟨hinside, hnone, rfl⟩)))⟩))⟩
    · exact exec_refused_of_not_ready hleaf (entryChecks_ok_iff.2 ⟨hinside, ht, hcssa⟩) hnot

end Sys2Proof.Machine
end

section
/-! Runs of EDECCSSA (R135): what `k` completing steps do, and where a fault ends them. -/

namespace Sys2Proof.Machine

/-- A run goes on where its first step completes. -/
theorem runSteps_succ_of_next {s t : State} (h : step s = .next t) (k : Nat) : runSteps (k + 1) s = runSteps k t := by
  rw [runSteps, h]

theorem runSteps_succ_of_fault {s : State} {f : Fault} (h : step s = .fault f) (k : Nat) :
    runSteps (k + 1) s = .faulted s f := by
  rw [runSteps, h]

/-- A run of `k + 1` completing steps is a completing step, then a run of `k`. -/
theorem runSteps_succ_final_iff {k : Nat} {s u : State} :
    runSteps (k + 1) s = .final u ↔ ∃ t, step s = .next t ∧ runSteps k t = .final u := by
  rw [runSteps]
  cases step s <;> simp

/-- A run faults in its first step, which leaves the state, or after it. -/
theorem runSteps_succ_faulted_iff {k : Nat} {s u : State} {f : Fault} :
    runSteps (k + 1) s = .faulted u f ↔
      (step s = .fault f ∧ u = s) ∨ ∃ t, step s = .next t ∧ runSteps k t = .faulted u f := by
  rw [runSteps]
  cases step s <;> simp [and_comm, eq_comm]

/-- A run goes on from the state its first `k` steps end in. -/
theorem runSteps_add_of_final {k : Nat} {s u : State} (h : runSteps k s = .final u) (j : Nat) :
    runSteps (k + j) s = runSteps j u := by
  induction k generalizing s with
  | zero =>
    obtain rfl : s = u := RunEnd.final.inj h
    rw [Nat.zero_add]
  | succ k ih =>
    obtain ⟨t, hstep, hrun⟩ := runSteps_succ_final_iff.1 h
    rw [Nat.add_right_comm, runSteps_succ_of_next hstep, ih hrun]

/-- One completing step pops one frame and moves `pc` by one instruction (R89, R93). -/
theorem step_pops {s u : State} {t : Tcs} (hstep : step s = .next u) (ht : s.currentTcs = some t) :
    1 ≤ t.cssa ∧ u.currentTcs = some { t with cssa := t.cssa - 1 } ∧
      u.pc.toNat = s.pc.toNat + s.config.instrLen ∧ u.config = s.config := by
  obtain ⟨-, hnext⟩ := step_next_iff.1 hstep
  obtain ⟨t', e, o, f, hready, -, -, -, -, -, rfl⟩ := exec_next_cases hnext
  obtain rfl : t' = t := Option.some.inj (hready.tcs.symm.trans ht)
  exact ⟨Nat.one_le_iff_ne_zero.2 hready.cssa, currentTcs_commitFrame .., toNat_pc_commitFrame hready.pcFits _ f, rfl⟩

/-- Settles O39, by induction on the number of steps. -/
theorem runPopsOneFrameAStep : Obligations.RunPopsOneFrameAStep := by
  intro k
  induction k with
  | zero =>
    intro s u t hrun ht
    obtain rfl : s = u := RunEnd.final.inj hrun
    simp [ht]
  | succ k ih =>
    intro s u t hrun ht
    obtain ⟨v, hstep, hrest⟩ := runSteps_succ_final_iff.1 hrun
    obtain ⟨hcssa, hv, hpc, hconfig⟩ := step_pops hstep ht
    obtain ⟨hk, hu, hpc'⟩ := ih v u _ hrest hv
    simp only at hk hu
    refine ⟨by omega, ?_, ?_⟩
    · rw [hu, Nat.sub_sub, Nat.add_comm 1 k]
    · rw [hpc', hpc, hconfig, Nat.succ_mul]
      omega

/-- No completing step of a run changes what lets control reach the leaf, or leaves the enclave (R14, R30; L1 of R131). -/
theorem runSteps_final_keeps {k : Nat} {s u : State} (h : runSteps k s = .final u) :
    u.encluReady = s.encluReady ∧ u.config = s.config ∧ u.inEnclave = s.inEnclave := by
  induction k generalizing s with
  | zero =>
    obtain rfl : s = u := RunEnd.final.inj h
    exact ⟨rfl, rfl, rfl⟩
  | succ k ih =>
    obtain ⟨v, hstep, hrest⟩ := runSteps_succ_final_iff.1 h
    obtain ⟨x, f, -, rfl⟩ := exec_next_iff_checkedFrame.1 (step_next_iff.1 hstep).2
    exact ih (s := commitFrame s x f) hrest

/-- Settles O40: the run has popped every frame, so the next step meets `TCS.CSSA = 0`. -/
theorem runEndsInGp0OnceTheFramesAreUsedUp : Obligations.RunEndsInGp0OnceTheFramesAreUsedUp := by
  intro s u t rest hready hsupported hinside ht hrun hdecode
  obtain ⟨hready', hconfig', hinside'⟩ := runSteps_final_keeps hrun
  obtain ⟨-, htcs, -⟩ := runPopsOneFrameAStep _ s u t hrun ht
  have hgp0 : exec .edeccssa u = .fault .gp0 :=
    cssaZeroRaisesGp0.1 u _ (hready'.trans hready) (hconfig' ▸ hsupported) (hinside'.trans hinside) htcs
      (Nat.sub_self _)
  rw [runSteps_add_of_final hrun]
  exact runSteps_succ_of_fault (step_fault_iff.2 ⟨⟨rest, hdecode⟩, hgp0⟩) 0

/-- Settles O41, by induction on the number of steps: the steps before the faulting one complete. -/
theorem faultLeavesTheStateBeforeTheStep : Obligations.FaultLeavesTheStateBeforeTheStep := by
  intro k
  induction k with
  | zero =>
    intro s u f hrun
    cases hrun
  | succ k ih =>
    intro s u f hrun
    rcases runSteps_succ_faulted_iff.1 hrun with ⟨hfault, rfl⟩ | ⟨v, hstep, hrest⟩
    · exact ⟨0, Nat.succ_pos k, rfl, hfault, (step_fault_iff.1 hfault).1⟩
    · obtain ⟨j, hj, hfinal, hfault, hdecode⟩ := ih v u f hrest
      exact ⟨j + 1, Nat.succ_lt_succ hj, runSteps_succ_final_iff.2 ⟨v, hstep, hfinal⟩, hfault, hdecode⟩

end Sys2Proof.Machine
end

section
/-! Where a fault of EDECCSSA comes from (R110 to R114): the entry checks, the check of one page, or the DS test. -/

namespace Sys2Proof.Machine

/-- A fault is one of the entry checks, or, in a ready state, one of the frame's checks: what stands between only
refuses (R96, R97). -/
theorem exec_fault_cases {s : State} {f : Fault} (h : exec .edeccssa s = .fault f) :
    (reachLeaf s = .ok () ∧ entryChecks s = .error (.raise f)) ∨
      ∃ t e o, Ready s t e o ∧ checkFrame s ⟨t, e, o⟩ = .error (.raise f) := by
  rcases edeccssaResult_error_iff.1 (exec_fault_iff.1 h) with
    hleaf | ⟨hleaf, hentry | ⟨t, hentry, hcontext | ⟨⟨t', e, o⟩, hcontext, hpremises | ⟨hpremises, hframe⟩⟩⟩⟩
  · rcases reachLeaf_error_iff.1 hleaf with ⟨-, ⟨⟩⟩ | ⟨-, -, ⟨⟩⟩
  · exact .inl ⟨hleaf, hentry⟩
  · rcases enclaveContext_error_iff.1 hcontext with ⟨-, ⟨⟩⟩ | ⟨-, -, ⟨⟩⟩ | ⟨-, -, -, ⟨⟩⟩
  · obtain ⟨_, -, ⟨⟩⟩ := checkPremises_error_iff.1 hpremises
  · obtain ⟨rfl, -⟩ := enclaveContext_ok_iff.1 hcontext
    exact .inr ⟨t', e, o, ready_iff.2 ⟨hleaf, hentry, hcontext, hpremises⟩, hframe⟩

/-- The entry checks raise `#GP(0)` and nothing else (R71, R72). -/
theorem entryChecks_raise_iff {s : State} {f : Fault} :
    entryChecks s = .error (.raise f) ↔
      (s.inEnclave = false ∨ s.inEnclave = true ∧ ∃ t, s.currentTcs = some t ∧ t.cssa = 0) ∧ f = .gp0 := by
  rw [entryChecks_error_iff, or_and_right, and_assoc]
  simp only [Stop.raise.injEq, reduceCtorEq, and_false, false_or]

/-- The frame's checks end early in the check of a checked page, or, past the XSAVE pages and the GPR area, in the DS
test (R115). -/
theorem checkFrame_error_cases {s : State} {t : Tcs} {e : Secs} {o : Nat} {x : Stop}
    (h : checkFrame s ⟨t, e, o⟩ = .error x) :
    (∃ ty a, Checked s t e ty a ∧ s.checkPage o ty a = .error x) ∨
      (∃ pas g, XsavePagesPass s t e o pas ∧ GprAreaPasses s t e o g ∧ s.mode64 = false ∧
        s.inDs (gprLast s.config t e) = false ∧ x = .raise .gp0) := by
  rcases checkFrame_error_iff.1 h with hpages | ⟨ps, hpages, hgpr | ⟨g, hgpr, hds | ⟨-, hcet⟩⟩⟩
  · obtain ⟨_, a, _, hsplit, -, hpage⟩ := checkPages_error_iff.1 hpages
    have ha : a ∈ visitedPages s.config t e := by
      rw [hsplit]
      exact List.mem_append_cons_self
    obtain ⟨n, hn, rfl⟩ := mem_visitedPages.1 ha
    exact .inl ⟨_, _, .xsave n hn, hpage⟩
  · exact .inl ⟨_, _, .gpr, hgpr⟩
  · obtain ⟨-, hpasses⟩ := checkPages_visited_iff.1 hpages
    have houtside := checkDs_error_iff.1 hds
    exact .inr ⟨_, g, hpasses, pagePasses_iff.2 hgpr, houtside⟩
  · obtain ⟨hgate, hpage⟩ := checkCet_error_iff.1 hcet
    exact .inl ⟨_, _, .cet hgate, hpage⟩

/-- The check of a page never raises `#GP(0)` (R76, R77). -/
theorem checkPage_ne_gp0 (s : State) (o : Nat) (ty : PageType) (a : Nat) :
    s.checkPage o ty a ≠ .error (.raise .gp0) := by
  intro h
  rcases checkPage_error_iff.1 h with ⟨_, -, ⟨⟩⟩ | ⟨_, -, -, ⟨⟩⟩

/-- A fault other than `#GP(0)` is the answer of the check of a checked page, in a ready state. -/
theorem exec_fault_checked {s : State} {f : Fault} (h : exec .edeccssa s = .fault f) (hne : f ≠ .gp0) :
    ∃ t e o ty a, Ready s t e o ∧ Checked s t e ty a ∧ s.checkPage o ty a = .error (.raise f) := by
  rcases exec_fault_cases h with ⟨-, hentry⟩ | ⟨t, e, o, hready, hframe⟩
  · exact absurd (entryChecks_raise_iff.1 hentry).2 hne
  · rcases checkFrame_error_cases hframe with ⟨ty, a, hchecked, hpage⟩ | ⟨_, _, -, -, -, -, hgp0⟩
    · exact ⟨t, e, o, ty, a, hready, hchecked, hpage⟩
    · exact absurd (Stop.raise.inj hgp0) hne

/-- Settles O23: a `#GP(0)` is not of a page's check, so it is of the entry checks or of the DS test; and each of the
three causes raises it. -/
theorem gp0HasExactlyThreeCauses : Obligations.Gp0HasExactlyThreeCauses := by
  refine ⟨fun s => ⟨fun hgp0 => ?cause, ?raises⟩, rfl⟩
  case cause =>
    rcases exec_fault_cases hgp0 with ⟨hleaf, hentry⟩ | ⟨t, e, o, hready, hframe⟩
    · obtain ⟨hencluReady, hsupported⟩ := reachLeaf_ok_iff.1 hleaf
      obtain ⟨houtside | hzero, -⟩ := entryChecks_raise_iff.1 hentry
      · exact ⟨hencluReady, hsupported, .inl houtside⟩
      · exact ⟨hencluReady, hsupported, .inr (.inl hzero)⟩
    · refine ⟨hready.encluReady, hready.supported, .inr (.inr ?_)⟩
      rcases checkFrame_error_cases hframe with ⟨_, _, -, hpage⟩ | ⟨pas, g, hpages, hgpr, hmode, houtside, -⟩
      · exact absurd hpage (checkPage_ne_gp0 s o _ _)
      · exact ⟨t, e, o, pas, g, hready, hpages, hgpr, hmode, houtside⟩
  case raises =>
    rintro ⟨hencluReady, hsupported, houtside | ⟨hinside, t, ht, hzero⟩ |
      ⟨t, e, o, pas, g, hready, hpages, hgpr, hmode, houtside⟩⟩
    · exact outsideAnEnclaveRaisesGp0.1 s hencluReady hsupported houtside
    · exact cssaZeroRaisesGp0.1 s t hencluReady hsupported hinside ht hzero
    · exact gprAreaOutsideDsRaisesGp0OutsideMode64.1 s t e o pas g hready hpages hgpr hmode houtside

/-- Settles O24: the check that raised it raises `#PF` at the address it checks, where that resolves and `PageOK` fails. -/
theorem pageFaultReportsTheCheckedAddress : Obligations.PageFaultReportsTheCheckedAddress := by
  intro s a code hfault
  refine ⟨?_, rfl, rfl⟩
  obtain ⟨t, e, o, ty, _, hready, hchecked, hpage⟩ := exec_fault_checked hfault Fault.noConfusion
  rcases checkPage_error_iff.1 hpage with ⟨_, -, ⟨⟩⟩ | ⟨p, hp, hbad, ⟨⟩⟩
  exact ⟨t, e, o, ty, p, hready, hchecked, hp, not_usablePage_iff.2 hbad⟩

/-- Settles O25: the check that raised it delivers the answer of `Translate` at the address it checks. -/
theorem translationFaultIsDeliveredUnchanged : Obligations.TranslationFaultIsDeliveredUnchanged := by
  intro s r hfault
  refine ⟨?_, rfl⟩
  obtain ⟨t, e, o, ty, a, hready, hchecked, hpage⟩ := exec_fault_checked hfault Fault.noConfusion
  rcases checkPage_error_iff.1 hpage with ⟨_, hr, ⟨⟩⟩ | ⟨_, -, -, ⟨⟩⟩
  exact ⟨t, e, o, ty, a, hready, hchecked, hr⟩

end Sys2Proof.Machine
end

section
/-! Launch states (R131): what premises L1 to L3 exclude, so that only a premise of R97 or a bound of R98 is left to refuse. -/

namespace Sys2Proof.Machine

/-- The inversion of a refusal: control does not reach the leaf, a structure that the operation reads is missing or not
valid, or a premise fails. The frame's checks refuse nothing. -/
theorem exec_refused_cases {s : State} {r : Refusal} (h : exec .edeccssa s = .refused r) :
    reachLeaf s = .error (.refuse r) ∨ entryChecks s = .error (.refuse r) ∨
      ∃ t, entryChecks s = .ok t ∧
        (enclaveContext s t = .error (.refuse r) ∨ ∃ x, failedPremise s x = some r) := by
  rcases edeccssaResult_error_iff.1 (exec_refused_iff.1 h) with
    hleaf | ⟨-, hentry | ⟨t, hentry, hcontext | ⟨x, -, hpremises | ⟨-, hframe⟩⟩⟩⟩
  · exact .inl hleaf
  · exact .inr (.inl hentry)
  · exact .inr (.inr ⟨t, hentry, .inl hcontext⟩)
  · obtain ⟨_, hpremise, ⟨⟩⟩ := checkPremises_error_iff.1 hpremises
    exact .inr (.inr ⟨t, hentry, .inr ⟨x, hpremise⟩⟩)
  · exact absurd hframe (checkFrame_ne_refuse s x r)

namespace LaunchPremises

variable {s : State}

theorem step_eq (h : LaunchPremises s) : step s = exec .edeccssa s := by
  obtain ⟨_, hdecode⟩ := h.instruction
  exact step_of_decode_ok hdecode

/-- L1 lets control reach the leaf. -/
theorem reachLeaf_eq (h : LaunchPremises s) : reachLeaf s = .ok () :=
  reachLeaf_ok_iff.2 ⟨h.encluReady, h.supported⟩

/-- L2 gives an enclave its current TCS, so the entry checks fault or pass. -/
theorem entryChecks_ne_refuse (h : LaunchPremises s) (r : Refusal) : entryChecks s ≠ .error (.refuse r) := by
  intro hentry
  rcases entryChecks_error_iff.1 hentry with ⟨-, ⟨⟩⟩ | ⟨hinside, hnone, -⟩ | ⟨-, -, ⟨⟩⟩
  obtain ⟨_, hsome⟩ := h.tcs hinside
  cases hnone.symm.trans hsome

theorem tcsValid_eq (h : LaunchPremises s) (hinside : s.inEnclave = true) : s.tcsValid = true := by
  obtain ⟨entry, hentry, hvalid⟩ := h.tcsValid hinside
  simp [State.tcsValid, hentry, hvalid]

/-- Inside an enclave, L2 and L3 give every structure that the operation reads. -/
theorem enclaveContext_ok (h : LaunchPremises s) (hinside : s.inEnclave = true) (t : Tcs) :
    ∃ x, enclaveContext s t = .ok x := by
  obtain ⟨e, he⟩ := h.secs hinside
  exact ⟨⟨t, e, s.crActiveSecs⟩, enclaveContext_ok_iff.2 ⟨rfl, he, h.owner hinside, h.tcsValid_eq hinside⟩⟩

/-- A refusal in a launch state names a failed premise. -/
theorem exists_failedPremise (h : LaunchPremises s) {r : Refusal} (hrefused : exec .edeccssa s = .refused r) :
    ∃ x, failedPremise s x = some r := by
  rcases exec_refused_cases hrefused with hleaf | hentry | ⟨t, hentry, hcontext | hpremise⟩
  · cases h.reachLeaf_eq.symm.trans hleaf
  · exact absurd hentry (h.entryChecks_ne_refuse r)
  · obtain ⟨x, hx⟩ := h.enclaveContext_ok (entryChecks_ok_iff.1 hentry).1 t
    cases hx.symm.trans hcontext
  · exact hpremise

end LaunchPremises

/-- Settles O7: L1 decodes to EDECCSSA and reaches its leaf, L2 and L3 pass its structures, and what then refuses is a
failed premise. -/
theorem launchStatesRefuseOnFailedPremisesOnly : Obligations.LaunchStatesRefuseOnFailedPremisesOnly := by
  intro s hlaunch
  refine ⟨hlaunch.step_eq, fun r hrefused => ?_⟩
  obtain ⟨x, hpremise⟩ := hlaunch.exists_failedPremise (hlaunch.step_eq ▸ hrefused)
  exact failedPremise_some hpremise

end Sys2Proof.Machine
end

section
/-! Launching a word (L1 of R131), and the reset state, in which no word is placed (R130, R135). -/

namespace Sys2Proof.Machine

/-- The table word of the opcode table stands for the encoding of EDECCSSA (R62). -/
theorem tableBytes_edeccssa : tableBytes 24 0xD7010F = encode .edeccssa := by decide

/-- Launching the encoding of EDECCSSA makes it the next instruction run: the fetch reads it back, with 09H in EAX. -/
theorem step_launchBytes_edeccssa (s : State) :
    step (s.launchBytes (encode .edeccssa)) = exec .edeccssa (s.launchBytes (encode .edeccssa)) :=
  step_of_decode_ok (decode_ok_iff.2 ⟨eax_launchBytes s _, rfl, fetchBytes_launchBytes s rfl⟩)

/-- Launching leaves the program text outside the bytes placed as it was. -/
theorem readByte_launchBytes_outside (s : State) (bs : List Byte) {a : Nat}
    (h : ¬ (s.pc.toNat ≤ a ∧ a < s.pc.toNat + bs.length)) :
    Memory.readByte (s.launchBytes bs).text a = Memory.readByte s.text a := by
  rw [State.launchBytes_text, Memory.readByte_write, if_neg h]

/-- Launching leaves bits 63:32 of RAX as they were. -/
theorem extract_rax_launchBytes (s : State) (bs : List Byte) :
    (s.launchBytes bs).rax.extractLsb' 32 32 = s.rax.extractLsb' 32 32 := by
  rw [State.launchBytes_rax, BitVec.extractLsb'_append_eq_left]

/-- Settles O6: the word stands for the encoding of EDECCSSA, which the next step runs; the rest is what launching
leaves as it was. -/
theorem launchedWordRunsNextAndChangesOnlyTheLaunch : Obligations.LaunchedWordRunsNextAndChangesOnlyTheLaunch := by
  intro s
  rw [State.withFetchWord, tableBytes_edeccssa]
  exact ⟨step_launchBytes_edeccssa s, rfl, fun _ => readByte_launchBytes_outside s (encode .edeccssa),
    extract_rax_launchBytes s _⟩

/-- An empty program text has no step, whatever else the state holds. -/
theorem step_of_text_nil {s : State} (h : s.text = []) : step s = .refused .endOfProgram := by
  have hnone : Memory.readByte s.text s.pc.toNat = none := by rw [h, Memory.readByte, Table.get_nil]
  exact stepRefusesWhateverIsNotEdeccssa.2.2.2 s hnone

/-- Settles O37: every table of the reset state is empty and its `pc` is 0, and its program text is empty. -/
theorem resetIsCanonicalAndHasNoInstruction : Obligations.ResetIsCanonicalAndHasNoInstruction :=
  ⟨by decide, step_of_text_nil rfl⟩

end Sys2Proof.Machine
end
